-- ==== Sys2Proof/Word.lean ====
section
/-! DEFINITION. The block's unit of data (00_scope.md R8): a byte, 8 bits, read as an unsigned integer 0 to 255.
Every byte-order and field helper stands in Machine/Operands.lean. -/

namespace Sys2Proof

/-- A byte of a source or of the sink (R8). -/
abbrev Byte := BitVec 8

end Sys2Proof
end

