-- ==== Sys2Proof/Config.lean ====
section
/-! DEFINITION. The constants of 00_scope.md R6 and R7, the open parameters of R7, and the free values. -/

namespace Sys2Proof.Config

/-- Bytes probed at the start of a source; size of the source header (R6). -/
@[simp] abbrev HDR_LEN : Nat := 128

/-- Number of leading bytes summed: offsets 0 to 65 (R6, R57; log 15). -/
@[simp] abbrev CSUM_SPAN : Nat := 66

/-- Modulus of the checksum (R6). -/
@[simp] abbrev CSUM_MOD : Nat := 65536

/-- Byte offset of the stored checksum (R6; 90_conflicts.md C1). -/
@[simp] abbrev CSUM_OFF : Nat := 67

/-- Byte offset of the logical length (R6; 90_conflicts.md C2). -/
@[simp] abbrev LLEN_OFF : Nat := 24

/-- Largest chunk payload (R6). -/
@[simp] abbrev CHUNK_MAX : Nat := 16384

/-- BANK "before any input is processed" (R6). -/
@[simp] abbrev BANK_RESET : Int := -1

/-- Least bank number two decimal digits can carry (R6). -/
@[simp] abbrev BANK_MIN : Int := 0

/-- Largest bank number two decimal digits can carry (R6). -/
@[simp] abbrev BANK_MAX : Int := 99

/-- Length of the container preamble (R6). -/
@[simp] abbrev PREAMBLE_LEN : Nat := 12

/-- Sink offset of the container length field (R6). -/
@[simp] abbrev LEN_OFF : Nat := 4

/-- The length field holds the stream length minus this (R6). -/
@[simp] abbrev LEN_BIAS : Nat := 8

/-- Length of a chunk record before its payload (R6). -/
@[simp] abbrev CHUNK_HDR_LEN : Nat := 8

/-- Width in bits of both length fields (R6). -/
@[simp] abbrev LENW : Nat := 32

/-- A source's length N satisfies 0 ≤ N < 2^SRCW (R7, D3). -/
@[simp] abbrev SRCW : Nat := 32

/-- Width of BANK and of each queue entry, signed (R7, D2). -/
@[simp] abbrev BANKW : Nat := 32

/-- A source's length is below this (R7, R146). -/
@[simp] abbrev SRC_LIMIT : Nat := 2 ^ SRCW

/-- Largest sink length whose LEN_BIAS-reduced value fits LENW bits, 2^32 + 7 (R109). -/
@[simp] abbrev SLEN_MAX : Nat := 2 ^ LENW - 1 + LEN_BIAS

/-- The two parameters R7 leaves to the model's user. They are configuration: no operation writes them. They are held
beside the state (State.params), so that a statement about every state covers every value of them (log 14). -/
structure Params where
  /-- QDEPTH, the capacity of the explicit queue; none = unbounded (R7, D14). -/
  qdepth : Option Nat
  /-- P_ZERO_SRC_CONSUMES: a source of payload length 0 consumes a numbering decision (R7, R95, D5). -/
  zeroSrcConsumes : Bool
deriving DecidableEq, Repr

/-- The defaults R7 gives: unbounded, false. -/
def Params.defaults : Params := { qdepth := none, zeroSrcConsumes := false }

/-- FREE VALUE, no body. What the n-th byte of a failed `MemWrite` left in the sink (R143: "which of that call's bytes
reached the sink is unspecified"; U8: "any value"): none = the offset is as it was, some b = it holds b. Log 6. -/
opaque failedWriteByte : Nat → Option Byte

/-- FREE VALUE, no body. FINFO of a BankRange whose BANK has left signed 32 bits: R98 lets a model hold such a BANK when
P_ZERO_SRC_CONSUMES is true, and R108, R141 and R144 give FINFO only as BANK's 32-bit two's-complement word, which it does
not have. Log 28. -/
opaque wideBankInfo : Int → BitVec 32

end Sys2Proof.Config
end

