-- ==== Sys2Proof/Syntax.lean ====
section
/-! DEFINITION. The operations, micro-operations, pseudo-operations and record formats of spec/opcode_table.json, one
constructor a row, and the command as the host hands it over (30_encoding.md R53, R69, R70). -/

namespace Sys2Proof

/-- One input byte sequence, first byte at offset 0 (00_scope.md R9). -/
abbrev Source := List Byte

/-- The 128-byte source header, every field of R55's table, the reserved ones too. Character and reserved fields keep
their bytes in offset order (R40); their lengths are checked by `SrcHdr.lengthsOk`. -/
structure SrcHdr where
  owner : Byte
  name : List Byte
  ext : List Byte
  reservedA : List Byte
  block : Byte
  last : Byte
  ftype : Byte
  dataloc : BitVec 16
  loadaddr : BitVec 16
  first : Byte
  loglen : BitVec 16
  entry : BitVec 16
  reservedB : List Byte
  reallen : BitVec 24
  cksum : BitVec 16
  reservedC : List Byte
deriving DecidableEq, Repr

/-- The rows of spec/opcode_table.json. The operands are abstract (R69). -/
inductive Instr where
  /-- RESET (R123). -/
  | reset
  /-- DETAILS.SET d (R124). -/
  | detailsSet (d : Bool)
  /-- BANKS.LOAD b1, …, bk: signed 32-bit integers (R91). -/
  | banksLoad (list : List Int)
  /-- HDR.PROBE s (R75). -/
  | hdrProbe (src : Source)
  /-- CPR.OPEN exists: the host input `sink_exists` (R116). -/
  | cprOpen (sinkExists : Bool)
  /-- CPR.ENCODE (R100). -/
  | cprEncode
  /-- CPR.FINALIZE (R118). -/
  | cprFinalize
  /-- ILLEGAL: a code byte that names no operation (R71). -/
  | illegal (code : Byte)
  /-- BANK.FIRST, micro-operation (R92). -/
  | bankFirst
  /-- BANK.NEXT, micro-operation (R93). -/
  | bankNext
  /-- CHUNK.EMIT, micro-operation (R105). -/
  | chunkEmit
  /-- CONVERT s, pseudo-operation (R126). -/
  | convert (src : Source)
  /-- RUN, pseudo-operation (R125): `banks` none = no explicit sequence, `sink` false = a details-only run (R127). -/
  | run (sources : List Source) (banks : Option (List Int)) (details : Bool) (sink : Bool) (sinkExists : Bool)
  /-- SRC_HDR, the source header record (R55). -/
  | srcHdr (h : SrcHdr)
  /-- PREAMBLE, the container preamble record, with the value of its length field (R58). -/
  | preamble (totalLength : BitVec Config.LENW)
  /-- CHUNK, the chunk record: bank number and payload (R59). -/
  | chunk (bank : Int) (payload : List Byte)
deriving DecidableEq, Repr

/-- A command as the host hands it to the block: the one-byte code and the operand lines (R69: "a one-byte code followed
by its operands", abstract). An operation reads the line it has and ignores the others (log 2). -/
structure Command where
  code : Byte
  /-- The one-bit operand: d of DETAILS.SET, `sink_exists` of CPR.OPEN. -/
  bit : Bool := false
  /-- The list operand of BANKS.LOAD, 32-bit words read as signed. -/
  banks : List (BitVec 32) := []
  /-- The source operand of HDR.PROBE. -/
  source : Source := []
deriving DecidableEq, Repr

end Sys2Proof
end

