-- ==== Sys2Proof/WellFormed.lean ====
section
/-! DEFINITION. What makes a term of `Instr` an instruction: the ranges the spec gives its operands. -/

namespace Sys2Proof

/-- A signed 32-bit integer (R7 BANKW, R91). -/
def bankWordOk (b : Int) : Bool := decide (-2 ^ (Config.BANKW - 1) ≤ b) && decide (b < 2 ^ (Config.BANKW - 1))

/-- The code bytes R70 assigns. -/
def assignedCodes : List Byte := [0x00, 0x01, 0x02, 0x10, 0x20, 0x21, 0x22]

/-- The byte fields of a source header have the lengths of R55. -/
def SrcHdr.lengthsOk (h : SrcHdr) : Bool :=
  h.name.length == 8 && h.ext.length == 3 && h.reservedA.length == 4 && h.reservedB.length == 36 &&
    h.reservedC.length == 59

/-- A chunk record has a bank number 0 to 99 and 1 to 16384 payload bytes (R59, R60). -/
def chunkOk (bank : Int) (payload : List Byte) : Bool :=
  decide (Config.BANK_MIN ≤ bank) && decide (bank ≤ Config.BANK_MAX) && decide (1 ≤ payload.length) &&
    decide (payload.length ≤ Config.CHUNK_MAX)

/-- The well-formed instructions. A source of any length is an operand (a longer one than R7 allows raises SourceTooLong,
R146), and so is a list of any length (R149). -/
def WellFormed : Instr → Bool
  | .reset => true
  | .detailsSet _ => true
  | .banksLoad list => list.all bankWordOk
  | .hdrProbe _ => true
  | .cprOpen _ => true
  | .cprEncode => true
  | .cprFinalize => true
  | .illegal code => !assignedCodes.contains code
  | .bankFirst => true
  | .bankNext => true
  | .chunkEmit => true
  | .convert _ => true
  | .run _ banks _ _ _ => (banks.getD []).all bankWordOk
  | .srcHdr h => h.lengthsOk
  | .preamble _ => true
  | .chunk bank payload => chunkOk bank payload

end Sys2Proof
end

