-- ==== Sys2Proof/Machine/Operands.lean ====
section
/-! DEFINITION. Every operand form: the operand lines of a command, little-endian numbers, the slices of the source
header, the bank digits, and the bytes of the three records (00_scope.md R8, 20_memory.md R39, R40, 30_encoding.md
R54 to R62). -/

namespace Sys2Proof

/-- The thirteen HF registers of 10_state.md R24, at the widths of its table. NAME (64 bits) and EXT (24 bits) keep their
8 and 3 bytes in offset order. -/
structure HdrFields where
  owner : Byte
  name : List Byte
  ext : List Byte
  block : Byte
  last : Byte
  ftype : Byte
  dataloc : BitVec 16
  loadaddr : BitVec 16
  first : Byte
  loglen : BitVec 16
  entry : BitVec 16
  reallen : BitVec 24
  cksum : BitVec 16
deriving DecidableEq, Repr

/-- `b[i]`, the byte at offset i (R8). The zero past the end is read by no rule: every slice lies inside its record. -/
def byteAt (b : List Byte) (i : Nat) : Byte := b.getD i 0

/-- `n` bytes from offset `o`, in offset order: `b[o .. o+n-1]` (R8). -/
def bytesAt (b : List Byte) (o n : Nat) : List Byte := (b.drop o).take n

/-- `le16(b, o)` (R8). -/
def le16 (b : List Byte) (o : Nat) : BitVec 16 := byteAt b (o + 1) ++ byteAt b o

/-- `le24(b, o)` (R8). -/
def le24 (b : List Byte) (o : Nat) : BitVec 24 := byteAt b (o + 2) ++ (byteAt b (o + 1) ++ byteAt b o)

/-- `le32(b, o)` (R8). -/
def le32 (b : List Byte) (o : Nat) : BitVec Config.LENW :=
  byteAt b (o + 3) ++ (byteAt b (o + 2) ++ (byteAt b (o + 1) ++ byteAt b o))

/-- The two bytes of a 16-bit number, least significant first (R39). -/
def le16Bytes (w : BitVec 16) : List Byte := [w.extractLsb' 0 8, w.extractLsb' 8 8]

/-- The three bytes of a 24-bit number, least significant first (R39). -/
def le24Bytes (w : BitVec 24) : List Byte := [w.extractLsb' 0 8, w.extractLsb' 8 8, w.extractLsb' 16 8]

/-- `LE32(v)`: the four bytes of a 32-bit number, least significant first (R8, R61). -/
def le32Bytes (w : BitVec Config.LENW) : List Byte :=
  [w.extractLsb' 0 8, w.extractLsb' 8 8, w.extractLsb' 16 8, w.extractLsb' 24 8]

/-- "RIFF" (R54; the codes are the spec's general knowledge, G2; log 27). -/
def tagRiff : List Byte := [0x52, 0x49, 0x46, 0x46]

/-- "AMS!" (R54). -/
def tagAms : List Byte := [0x41, 0x4D, 0x53, 0x21]

/-- "cb" (R54). -/
def tagCb : List Byte := [0x63, 0x62]

/-- The ASCII code of a decimal digit (R54). -/
def digit (d : Nat) : Byte := BitVec.ofNat 8 (0x30 + d)

/-- The bank number field: tens digit first (R60). It is used only on a bank number 0 to 99. -/
def bankDigits (bank : Int) : List Byte := [digit (bank.toNat / 10), digit (bank.toNat % 10)]

/-- The 12 bytes of the preamble with length field `len` (R58). -/
def preambleBytes (len : BitVec Config.LENW) : List Byte := tagRiff ++ le32Bytes len ++ tagAms

/-- The chunk's length field: LE32 of the payload length (R59, R61). -/
def chunkLength (payload : List Byte) : List Byte := le32Bytes (BitVec.ofNat Config.LENW payload.length)

/-- The bytes of a chunk record (R59). -/
def chunkBytes (bank : Int) (payload : List Byte) : List Byte :=
  tagCb ++ bankDigits bank ++ chunkLength payload ++ payload

/-- The 128 bytes of a source header, fields in R55's order. -/
def SrcHdr.bytes (h : SrcHdr) : List Byte :=
  [h.owner] ++ h.name ++ h.ext ++ h.reservedA ++ [h.block, h.last, h.ftype] ++ le16Bytes h.dataloc ++
    le16Bytes h.loadaddr ++ [h.first] ++ le16Bytes h.loglen ++ le16Bytes h.entry ++ h.reservedB ++
    le24Bytes h.reallen ++ le16Bytes h.cksum ++ h.reservedC

/-- The fields of a source header, sliced at R55's offsets. -/
def sliceSrcHdr (h : List Byte) : SrcHdr where
  owner := byteAt h 0
  name := bytesAt h 1 8
  ext := bytesAt h 9 3
  reservedA := bytesAt h 12 4
  block := byteAt h 16
  last := byteAt h 17
  ftype := byteAt h 18
  dataloc := le16 h 19
  loadaddr := le16 h 21
  first := byteAt h 23
  loglen := le16 h Config.LLEN_OFF
  entry := le16 h 26
  reservedB := bytesAt h 28 36
  reallen := le24 h 64
  cksum := le16 h Config.CSUM_OFF
  reservedC := bytesAt h 69 59

/-- What the HF registers are loaded with from the probe bytes (R24, R62, R84). -/
def hdrFields (h : List Byte) : HdrFields where
  owner := byteAt h 0
  name := bytesAt h 1 8
  ext := bytesAt h 9 3
  block := byteAt h 16
  last := byteAt h 17
  ftype := byteAt h 18
  dataloc := le16 h 19
  loadaddr := le16 h 21
  first := byteAt h 23
  loglen := le16 h Config.LLEN_OFF
  entry := le16 h 26
  reallen := le24 h 64
  cksum := le16 h Config.CSUM_OFF

/-- The list operand of BANKS.LOAD: 32-bit words read as signed (R91). -/
def Command.bankList (c : Command) : List Int := c.banks.map BitVec.toInt

/-- A list of signed integers on the list operand line. -/
def bankWords (list : List Int) : List (BitVec 32) := list.map (BitVec.ofInt 32)

end Sys2Proof
end

