-- ==== Sys2Proof/Machine/Flags.lean ====
section
/-! DEFINITION. Every flag computation and every test an operation branches on. The block has no condition codes
(10_state.md R26): HAS_HDR is the one computed flag, and the rest are the tests of the pseudocode. -/

namespace Sys2Proof

/-- The sum of the first `span` bytes modulo 65536 (R79, R88): a 16-bit accumulator. -/
def checksumOver (span : Nat) (h : List Byte) : BitVec 16 :=
  BitVec.ofNat 16 (((h.take span).map BitVec.toNat).sum % Config.CSUM_MOD)

/-- CSUM: the sum of offsets 0 to 65 modulo 65536 (R79). -/
def checksum (h : List Byte) : BitVec 16 := checksumOver Config.CSUM_SPAN h

/-- The stored checksum, at offsets 67 and 68 (R80). -/
def storedChecksum (h : List Byte) : BitVec 16 := le16 h Config.CSUM_OFF

/-- HAS_HDR of a full probe: equality of the two, and nothing else (R80, R66). -/
def headerPresent (h : List Byte) : Bool := checksum h == storedChecksum h

/-- The probe of a source of length n is short (R77). -/
def shortSource (n : Nat) : Bool := decide (n < Config.HDR_LEN)

/-- The source has 2^32 bytes or more, which N cannot hold (R146). -/
def sourceTooLong (len : Nat) : Bool := decide (Config.SRC_LIMIT ≤ len)

/-- The source does not contain the payload its header declares (R102). -/
def underrun (pos paylen n : Nat) : Bool := decide (n < pos + paylen)

/-- Two decimal digits can carry the bank number (R108). -/
def bankInRange (bank : Int) : Bool := decide (Config.BANK_MIN ≤ bank) && decide (bank ≤ Config.BANK_MAX)

/-- FINFO of BankRange: BANK as a 32-bit two's-complement word (R108, R141, R144). For a BANK that has none the spec states
no value, and it is a free value (log 28). -/
def bankInfo (bank : Int) : BitVec 32 :=
  if bankWordOk bank then BitVec.ofInt 32 bank else Config.wideBankInfo bank

/-- A record of `csize` payload bytes keeps the container within its 32-bit length field (R109). -/
def containerFits (slen csize : Nat) : Bool := decide (slen + Config.CHUNK_HDR_LEN + csize ≤ Config.SLEN_MAX)

/-- A list of `k` entries fits the explicit queue (R91, R149). -/
def queueFits (qdepth : Option Nat) (k : Nat) : Bool :=
  match qdepth with
  | none => true
  | some d => decide (k ≤ d)

/-- `ceil(len / 16384)`, the number of chunks of a payload (R104, R113). -/
def chunkCount (len : Nat) : Nat := (len + (Config.CHUNK_MAX - 1)) / Config.CHUNK_MAX

end Sys2Proof
end

