-- ==== Sys2Proof/Decode.lean ====
section
/-! DEFINITION. The decoder of commands (30_encoding.md R69 to R71) and of the three records (R55, R58, R59, R63),
total, each rejection by a name of its own; after them the expansion of the pseudo-operations and the encoders. -/

namespace Sys2Proof

/-- Why a decoder rejects. -/
inductive DecodeError where
  /-- The code byte names no operation (R71). -/
  | illegalCode (code : Byte)
  /-- Fewer bytes than the record's fixed part (R53). -/
  | shortRecord
  /-- The 128 bytes are not a header: their checksum does not match (R66, R80). -/
  | checksumMismatch
  /-- The container does not begin with "RIFF" (R58). -/
  | badMagic
  /-- The container's bytes 8 to 11 are not "AMS!" (R58). -/
  | badFormatTag
  /-- No "cb" at a record boundary (R63, R65). -/
  | badChunkTag
  /-- A bank byte outside 0x30 to 0x39 (R65). -/
  | badBankDigits
  /-- A chunk length of 0 or over 16384 (R65). -/
  | badChunkLength
  /-- The payload ends before its length field says (R63). -/
  | truncatedPayload
  /-- The container's length field disagrees with the stream length (R63, R65). -/
  | badContainerLength
deriving DecidableEq, Repr

/-! The operation codes of R70. -/

def codeReset : Byte := 0x00
def codeDetailsSet : Byte := 0x01
def codeBanksLoad : Byte := 0x02
def codeHdrProbe : Byte := 0x10
def codeCprOpen : Byte := 0x20
def codeCprEncode : Byte := 0x21
def codeCprFinalize : Byte := 0x22

/-- The operation a command names (R70), with its operand; every other code byte is rejected by name (R71). -/
def decode (c : Command) : Except DecodeError Instr :=
  if c.code = codeReset then .ok .reset
  else if c.code = codeDetailsSet then .ok (.detailsSet c.bit)
  else if c.code = codeBanksLoad then .ok (.banksLoad c.bankList)
  else if c.code = codeHdrProbe then .ok (.hdrProbe c.source)
  else if c.code = codeCprOpen then .ok (.cprOpen c.bit)
  else if c.code = codeCprEncode then .ok .cprEncode
  else if c.code = codeCprFinalize then .ok .cprFinalize
  else .error (.illegalCode c.code)

/-- What the block runs when it is handed a command: the operation decoded, or, for a code byte the decoder rejects, the
ILLEGAL row (R71: "the block, if handed one, raises PhaseError with FINFO = the code byte"). -/
def commandInstr (c : Command) : Instr :=
  match decode c with
  | .ok i => i
  | .error _ => .illegal c.code

/-- The source header in the first 128 bytes: a header if and only if its checksum matches (R66). -/
def decodeSrcHdr (b : List Byte) : Except DecodeError (SrcHdr × List Byte) :=
  if b.length < Config.HDR_LEN then .error .shortRecord
  else if headerPresent b then .ok (sliceSrcHdr b, b.drop Config.HDR_LEN)
  else .error .checksumMismatch

/-- The length field of the preamble in the first 12 bytes (R58). -/
def decodePreamble (b : List Byte) : Except DecodeError (BitVec Config.LENW × List Byte) :=
  if b.length < Config.PREAMBLE_LEN then .error .shortRecord
  else if bytesAt b 0 4 ≠ tagRiff then .error .badMagic
  else if bytesAt b 8 4 ≠ tagAms then .error .badFormatTag
  else .ok (le32 b Config.LEN_OFF, b.drop Config.PREAMBLE_LEN)

/-- A byte is an ASCII decimal digit (R54, R65). -/
def isDigit (b : Byte) : Bool := decide (0x30 ≤ b.toNat) && decide (b.toNat ≤ 0x39)

/-- The bank number two ASCII digits name (R60). -/
def bankOfDigits (tens units : Byte) : Int := ((tens.toNat - 0x30) * 10 + (units.toNat - 0x30) : Nat)

/-- The chunk record at the head of a byte string, and the bytes after it (R59, R63). -/
def decodeChunk (b : List Byte) : Except DecodeError ((Int × List Byte) × List Byte) :=
  if b.length < Config.CHUNK_HDR_LEN then .error .shortRecord
  else if bytesAt b 0 2 ≠ tagCb then .error .badChunkTag
  else if !(isDigit (byteAt b 2) && isDigit (byteAt b 3)) then .error .badBankDigits
  else
    let len := (le32 b 4).toNat
    if len = 0 ∨ Config.CHUNK_MAX < len then .error .badChunkLength
    else if (b.drop Config.CHUNK_HDR_LEN).length < len then .error .truncatedPayload
    else .ok ((bankOfDigits (byteAt b 2) (byteAt b 3), bytesAt b Config.CHUNK_HDR_LEN len),
      b.drop (Config.CHUNK_HDR_LEN + len))

/-- The records of a chunk sequence, front to back (R63). `fuel` is the number of bytes: each record takes at least one. -/
def scanChunks : Nat → List Byte → Except DecodeError (List (Int × List Byte))
  | _, [] => .ok []
  | 0, _ :: _ => .error .shortRecord
  | fuel + 1, b :: bs =>
    match decodeChunk (b :: bs) with
    | .error e => .error e
    | .ok (record, rest) =>
      match scanChunks fuel rest with
      | .error e => .error e
      | .ok records => .ok (record :: records)

/-- Reading a finalised container back (R63): the preamble, the length field equal to the stream length minus 8, and the
records from offset 12 on. -/
def scanContainer (b : List Byte) : Except DecodeError (List (Int × List Byte)) :=
  match decodePreamble b with
  | .error e => .error e
  | .ok (len, rest) =>
    if len.toNat + Config.LEN_BIAS ≠ b.length then .error .badContainerLength
    else scanChunks rest.length rest

/-- The bytes of one command word of spec/opcode_table.json: the first byte is the code; the table gives the operands no
bits, so they are zeros (log 2). -/
def tableCommand (nbits w : Nat) : Command := { code := BitVec.ofNat 8 (w % 2 ^ nbits) }

/-- The instruction the decoder reads from a table word, none where it refuses. -/
def decodeTableWord (nbits w : Nat) : Option Instr :=
  match decode (tableCommand nbits w) with
  | .ok i => some i
  | .error _ => none

/-- What a pseudo-operation expands to (R125, R126); every other instruction stands for itself. -/
def expand : Instr → List Instr
  | .convert src => [.hdrProbe src, .cprEncode]
  | .run sources banks details sink sinkExists =>
    [.detailsSet details] ++ (match banks with | some list => [.banksLoad list] | none => []) ++
      (if sink then [.cprOpen sinkExists] else []) ++
      sources.flatMap (fun src => .hdrProbe src :: if sink then [.cprEncode] else []) ++
      (if sink then [.cprFinalize] else [])
  | i => [i]

/-- The command of an operation the host can issue, and of an illegal code byte; none for a micro-operation, a
pseudo-operation or a record, which have no code (R70). -/
def encodeOp : Instr → Option Command
  | .reset => some { code := codeReset }
  | .detailsSet d => some { code := codeDetailsSet, bit := d }
  | .banksLoad list => some { code := codeBanksLoad, banks := bankWords list }
  | .hdrProbe src => some { code := codeHdrProbe, source := src }
  | .cprOpen sinkExists => some { code := codeCprOpen, bit := sinkExists }
  | .cprEncode => some { code := codeCprEncode }
  | .cprFinalize => some { code := codeCprFinalize }
  | .illegal code => some { code := code }
  | .bankFirst => none
  | .bankNext => none
  | .chunkEmit => none
  | .convert _ => none
  | .run _ _ _ _ _ => none
  | .srcHdr _ => none
  | .preamble _ => none
  | .chunk _ _ => none

/-- The commands an instruction is issued as: one for an operation, those of its expansion for a pseudo-operation, none
for a micro-operation or a record (R70, R73). -/
def encode (i : Instr) : List Command := (expand i).filterMap encodeOp

/-- The bytes of a record format, none for everything that is not a record (R53). -/
def encodeRecord : Instr → Option (List Byte)
  | .srcHdr h => some h.bytes
  | .preamble totalLength => some (preambleBytes totalLength)
  | .chunk bank payload => some (chunkBytes bank payload)
  | .reset => none
  | .detailsSet _ => none
  | .banksLoad _ => none
  | .hdrProbe _ => none
  | .cprOpen _ => none
  | .cprEncode => none
  | .cprFinalize => none
  | .illegal _ => none
  | .bankFirst => none
  | .bankNext => none
  | .chunkEmit => none
  | .convert _ => none
  | .run _ _ _ _ _ => none

end Sys2Proof
end

