-- ==== Sys2Proof/Machine/State.lean ====
section
/-! DEFINITION. The state of the block (10_state.md), its phases, the reasons the model stops, and the state after
reset. Every field is plain data. -/

namespace Sys2Proof.Machine

/-- PHASE (10_state.md R17). -/
inductive Phase where
  /-- 0 CLOSED: no container open. -/
  | closed
  /-- 1 OPEN: preamble written, chunk records may be appended. -/
  | opened
  /-- 2 FINAL: length field patched, sink closed; terminal until RESET. -/
  | final
  /-- 3 FAULTED: a fault was recorded; terminal until RESET. -/
  | faulted
deriving DecidableEq, Repr

/-- The eight fault causes of 60_exceptions.md R141. -/
inductive Cause where
  | sinkExists
  | ioFailure
  | bankRange
  | sourceUnderrun
  | sourceTooLong
  | containerOverflow
  | phaseError
  | queueOverflow
deriving DecidableEq, Repr

/-- One event of the report channel (10_state.md R31). -/
inductive Report where
  | noHeader
  | header (f : HdrFields)
deriving DecidableEq, Repr

/-- What one primitive call answers: the `io_error` oracle of 10_state.md R32, and a call that never returns
(70_reset_and_hazards.md R179, 93_implementation_defined.md U18; log 5, log 7). -/
inductive IoAnswer where
  | ok
  | error
  | never
deriving DecidableEq, Repr

/-- A byte space: (offset, byte) pairs, offsets strictly rising. An unlisted offset holds no byte (log 21). -/
abbrev Memory := List Host.Cell

/-- Why the model stops a step. None of these is a fault of the block: those are next states (R150). -/
inductive Fault where
  /-- Raised by a `SrcLen` or `MemRead` with no source bound (20_memory.md R36). Safe: the spec gives no meaning; no
  state that meets the invariant reaches it. Log 8. -/
  | noSourceBound
  /-- Raised by a `MemRead` that leaves the source: R36 "defined only when addr + n ≤ N" (R47). Safe: as above. Log 8. -/
  | sourceReadOutside (addr n : Nat)
  /-- Raised by every primitive call whose answer is `never`: the block hangs (R179, U18 "stuck"). Safe. Log 7. -/
  | primitiveNeverReturns
deriving DecidableEq, Repr

/-- Why the model gives an instruction no meaning. -/
inductive Refusal where
  /-- Raised by an arm of `exec` that has no meaning yet. Safe. -/
  | notModelled (mnemonic : String)
deriving DecidableEq, Repr

/-- The state of the block, and beside it what the host has handed it. -/
structure State where
  /-- BANK, signed 32 bits (R14; log 13). -/
  bank : Int
  /-- QUEUE, the explicit bank numbers not yet used (R15). -/
  queue : List Int
  /-- DETAILS (R16). -/
  details : Bool
  /-- PHASE (R17). -/
  phase : Phase
  /-- FAULT, cause code (R18, R141). -/
  fault : BitVec 8
  /-- FINFO, information word (R18, R141). -/
  finfo : BitVec 32
  /-- SLEN, bytes in the sink, 33 bits (R19; log 13). -/
  slen : Nat
  /-- SRC_VALID (R20). -/
  srcValid : Bool
  /-- N, length of the bound source, 32 bits (R21; log 13). -/
  n : Nat
  /-- HAS_HDR (R22). -/
  hasHdr : Bool
  /-- PAYLEN, 32 bits (R23; log 13). -/
  paylen : Nat
  /-- POS, read position in the bound source, 32 bits (R13; log 13). -/
  pos : Nat
  /-- CSUM (R11). -/
  csum : BitVec 16
  /-- REM, payload bytes still to emit, 32 bits (R11; log 13). -/
  rem : Nat
  /-- CSIZE, size of the chunk being emitted, 15 bits (R11; log 13). -/
  csize : Nat
  /-- HF: the thirteen header field registers; without a value when no header was found (R24, R25; log 4). -/
  hf : Option HdrFields
  /-- The bound source (20_memory.md R36). -/
  source : Option Source
  /-- The sink K (R37). -/
  sink : Memory
  /-- The sinks of earlier runs, oldest first (70_reset_and_hazards.md R167; log 9). -/
  pastSinks : List Memory
  /-- The report channel, oldest event first (R31). -/
  reports : List Report
  /-- The commands the host has issued and the block has not run, oldest first (R69; log 1). -/
  port : List Command
  /-- The answers of the next primitive calls, oldest first; past its end every call succeeds (R32; log 5). -/
  io : List IoAnswer
  /-- The model's own counter of free values drawn (log 6). -/
  freeDraws : Nat
  /-- The open parameters (R7; log 14). -/
  params : Config.Params
deriving DecidableEq, Repr

/-- The state after reset (R30), nothing issued yet. The values of N, HAS_HDR, PAYLEN, POS, CSUM, REM and CSIZE are a
DESIGN CHOICE of the model (log 3), and so is the draw counter's (log 6). -/
def State.reset : State where
  bank := Config.BANK_RESET
  queue := []
  details := false
  phase := .closed
  fault := 0
  finfo := 0
  slen := 0
  srcValid := false
  n := 0
  hasHdr := false
  paylen := 0
  pos := 0
  csum := 0
  rem := 0
  csize := 0
  hf := none
  source := none
  sink := []
  pastSinks := []
  reports := []
  port := []
  io := []
  freeDraws := 0
  params := Config.Params.defaults

end Sys2Proof.Machine
end

