-- ==== Sys2Proof/Machine/Ops.lean ====
section
/-! DEFINITION. The named operations every meaning is made of: the sink as memory, the primitives of 20_memory.md R36 to
R38, `raise` (60_exceptions.md R150), the rule for phase FAULTED (R157), and the command fetch. -/

namespace Sys2Proof.Machine

/-- What a meaning answers. -/
abbrev Result := Host.Outcome State Fault Refusal

/-! ## The sink as memory -/

/-- The byte at an offset, none where the space holds none. -/
def Memory.read : Memory → Nat → Option Byte
  | [], _ => none
  | (x, c) :: m, a => if a = x then some c else Memory.read m a

/-- One byte stored, the offsets kept strictly rising. -/
def Memory.write : Memory → Nat → Byte → Memory
  | [], a, b => [(a, b)]
  | (x, c) :: m, a, b =>
    if a < x then (a, b) :: (x, c) :: m
    else if a = x then (a, b) :: m
    else (x, c) :: Memory.write m a b

/-- `K[addr+i] := v[i]` for every i (R37). -/
def Memory.writeBytes : Memory → Nat → List Byte → Memory
  | m, _, [] => m
  | m, a, b :: bs => Memory.writeBytes (Memory.write m a b) (a + 1) bs

/-- What a failed `MemWrite` of `count` bytes at `addr` leaves: each of those bytes as a free value says (R143; log 6). -/
def Memory.scribble : Memory → Nat → Nat → Nat → Memory
  | m, _, _, 0 => m
  | m, addr, draw, count + 1 =>
    match Config.failedWriteByte draw with
    | none => Memory.scribble m (addr + 1) (draw + 1) count
    | some b => Memory.scribble (Memory.write m addr b) (addr + 1) (draw + 1) count

/-- The canonical form: offsets strictly rising. -/
abbrev Memory.wf (m : Memory) : Prop := m.Pairwise (fun p q => p.1 < q.1)

/-! ## Faults of the block -/

/-- The code of a cause (R141). -/
def Cause.code : Cause → BitVec 8
  | .sinkExists => 1
  | .ioFailure => 2
  | .bankRange => 3
  | .sourceUnderrun => 4
  | .sourceTooLong => 5
  | .containerOverflow => 6
  | .phaseError => 7
  | .queueOverflow => 8

/-- The code of a phase (R17). -/
def Phase.code : Phase → BitVec 2
  | .closed => 0
  | .opened => 1
  | .final => 2
  | .faulted => 3

/-- FAULT, FINFO and PHASE after a `raise`; every other register as it was (R150). -/
def State.recordFault (s : State) (c : Cause) (info : BitVec 32) : State :=
  { s with fault := c.code, finfo := info, phase := .faulted }

/-- `raise F(info)` (R150): the one way a fault is taken. Nothing is saved and there is no handler; there is no return
from it (R156), and RESET alone leaves FAULTED. -/
def raise (c : Cause) (info : BitVec 32) (s : State) : Result := .next (s.recordFault c info)

/-- A code byte as an information word (R141). -/
def codeInfo (code : Byte) : BitVec 32 := code.setWidth 32

/-! ## Sequencing -/

/-- The rest of an operation after one of its steps: not run once a fault was recorded (R8: "Nothing after a `raise` in
pseudocode is executed"; R150). A step is only ever run in a phase other than FAULTED, so phase FAULTED after it means
that it raised. -/
def andThen (r : Result) (k : State → Result) : Result :=
  match r with
  | .next s => if s.phase = .faulted then .next s else k s
  | .fault f => .fault f
  | .refused e => .refused e

/-- `if PHASE == FAULTED: return`, the first line of every operation but RESET (R157). -/
def unlessFaulted (s : State) (k : State → Result) : Result := andThen (.next s) k

/-! ## The primitives -/

/-- The answer of the next primitive call: success past the end of the list (R32; log 5). -/
def State.ioAnswer (s : State) : IoAnswer := s.io.headD .ok

/-- That answer used up. -/
def State.ioNext (s : State) : State := { s with io := s.io.tail }

/-- A primitive call with no effect of its own on the block: IoFailure with the operation's code byte if it fails (R143). -/
def ioCall (code : Byte) (s : State) : Result :=
  match s.ioAnswer with
  | .ok => .next s.ioNext
  | .error => raise .ioFailure (codeInfo code) s.ioNext
  | .never => .fault .primitiveNeverReturns

/-- The length of the bound source: the value of `SrcLen()` (R36). -/
def State.sourceLen (s : State) : Nat := (s.source.getD []).length

/-- The bytes S[addr .. addr+n-1] of the bound source: the value of `MemRead(addr, n)` (R36). -/
def State.sourceBytes (s : State) (addr n : Nat) : List Byte := bytesAt (s.source.getD []) addr n

/-- `SrcLen()` (R36): its value is `State.sourceLen`. -/
def srcLen (code : Byte) (s : State) : Result :=
  match s.source with
  | none => .fault .noSourceBound
  | some _ => ioCall code s

/-- `MemRead(addr, n)` (R36, R47), defined only inside the source: its value is `State.sourceBytes`. -/
def memRead (addr n : Nat) (code : Byte) (s : State) : Result :=
  match s.source with
  | none => .fault .noSourceBound
  | some src => if addr + n ≤ src.length then ioCall code s else .fault (.sourceReadOutside addr n)

/-- The sink with `v` stored at `addr`. -/
def State.store (s : State) (addr : Nat) (v : List Byte) : State := { s with sink := s.sink.writeBytes addr v }

/-- The sink after a failed call that would have stored `count` bytes at `addr` (R143). -/
def State.scribbled (s : State) (addr count : Nat) : State :=
  { s with sink := s.sink.scribble addr s.freeDraws count, freeDraws := s.freeDraws + count }

/-- `MemWrite(addr, len(v), v)` (R37). -/
def memWrite (addr : Nat) (v : List Byte) (code : Byte) (s : State) : Result :=
  match s.ioAnswer with
  | .ok => .next (s.ioNext.store addr v)
  | .error => raise .ioFailure (codeInfo code) (s.ioNext.scribbled addr v.length)
  | .never => .fault .primitiveNeverReturns

/-- SLEN grown by `k` bytes. -/
def State.grow (s : State) (k : Nat) : State := { s with slen := s.slen + k }

/-- `Append(v)` (R38). -/
def append (v : List Byte) (code : Byte) (s : State) : Result :=
  andThen (memWrite s.slen v code s) fun t => .next (t.grow v.length)

/-! ## The command fetch -/

/-- The next command taken from the port, none when the host has issued nothing (R166; log 1). -/
def fetchInstr (s : State) : Option (Instr × State) :=
  match s.port with
  | [] => none
  | c :: rest => some (commandInstr c, { s with port := rest })

end Sys2Proof.Machine
end

