-- ==== Sys2Proof/Machine/Sequencer.lean ====
section
/-! DEFINITION. The bank-number sequencer: BANKS.LOAD, BANK.FIRST, BANK.NEXT (41_bank_sequencer.md R90 to R99). -/

namespace Sys2Proof.Machine

/-- FINFO of QueueOverflow: the number of entries offered, saturated (R141, R149). -/
def saturate32 (k : Nat) : BitVec 32 := BitVec.ofNat 32 (min k (2 ^ 32 - 1))

/-- BANKS.LOAD (R91). -/
def execBanksLoad (list : List Int) (s : State) : Result :=
  unlessFaulted s fun s =>
    if s.phase ≠ .closed then raise .phaseError (codeInfo codeBanksLoad) s
    else if queueFits s.params.qdepth list.length then .next { s with queue := list }
    else raise .queueOverflow (saturate32 list.length) s

/-- The numbering decision for a source's first chunk: queue pop if available, else counter increment (R92, R90). -/
def State.bankFirst (s : State) : State :=
  match s.queue with
  | b :: rest => { s with bank := b, queue := rest }
  | [] => { s with bank := s.bank + 1 }

/-- The increment for a further chunk of the same source; QUEUE is neither read nor changed (R93). -/
def State.bankNext (s : State) : State := { s with bank := s.bank + 1 }

/-- BANK.FIRST (R92; log 10). -/
def execBankFirst (s : State) : Result := unlessFaulted s fun s => .next s.bankFirst

/-- BANK.NEXT (R93; log 10). -/
def execBankNext (s : State) : Result := unlessFaulted s fun s => .next s.bankNext

end Sys2Proof.Machine
end

