-- ==== Sys2Proof/Machine/Encoder.lean ====
section
/-! DEFINITION. The chunk encoder: CHUNK.EMIT and the record it writes, CHUNK, and CPR.ENCODE (42_chunk_encoder.md R100
to R114, 30_encoding.md R59). -/

namespace Sys2Proof.Machine

/-- The four appends of a chunk record, in order (R105, R107). -/
def appendRecord (bank : Int) (payload : List Byte) (s : State) : Result :=
  andThen (append tagCb codeCprEncode s) fun s =>
    andThen (append (bankDigits bank) codeCprEncode s) fun s =>
      andThen (append (chunkLength payload) codeCprEncode s) fun s => append payload codeCprEncode s

/-- The two tests that precede every byte of a record, in order (R108, R109, R154), and what follows them. FINFO of
BankRange is `bankInfo`, free where BANK has no 32-bit word (log 28). -/
def checkRecord (bank : Int) (csize : Nat) (s : State) (k : State → Result) : Result :=
  if bankInRange bank then
    if containerFits s.slen csize then k s else raise .containerOverflow (BitVec.ofNat 32 csize) s
  else raise .bankRange (bankInfo bank) s

/-- POS and REM after a chunk (R110). -/
def State.consume (s : State) : State := { s with pos := s.pos + s.csize, rem := s.rem - s.csize }

/-- CHUNK.EMIT's pseudocode (R105). -/
def emitChunk (s : State) : Result :=
  let s := { s with csize := min Config.CHUNK_MAX s.rem }
  checkRecord s.bank s.csize s fun s =>
    andThen (memRead s.pos s.csize codeCprEncode s) fun s =>
      andThen (appendRecord s.bank (s.sourceBytes s.pos s.csize) s) fun s => .next s.consume

/-- CHUNK.EMIT (R105; log 10). -/
def execChunkEmit (s : State) : Result := unlessFaulted s emitChunk

/-- CHUNK: the record appended to the sink, after the tests every record passes (R59, R60, R107 to R109; log 11). -/
def execChunk (bank : Int) (payload : List Byte) (s : State) : Result :=
  unlessFaulted s fun s => checkRecord bank payload.length s (appendRecord bank payload)

/-- CPR.ENCODE's loop: while REM > 0, emit, and advance the bank if more remains (R104, R111). `fuel` is the chunk count,
which the loop uses up exactly (R104). -/
def encodeLoop : Nat → State → Result
  | 0, s => .next s
  | fuel + 1, s =>
    if s.rem = 0 then .next s
    else andThen (emitChunk s) fun s => if s.rem = 0 then .next s else encodeLoop fuel s.bankNext

/-- CPR.ENCODE before its loop: REM, and the numbering decision when there is a first chunk, or always under
P_ZERO_SRC_CONSUMES (R100, R103, R95). -/
def State.startEncode (s : State) : State :=
  let s := { s with rem := s.paylen }
  if 0 < s.rem || s.params.zeroSrcConsumes then s.bankFirst else s

/-- CPR.ENCODE (R100 to R104, R111, R112). -/
def execCprEncode (s : State) : Result :=
  unlessFaulted s fun s =>
    if s.phase ≠ .opened ∨ s.srcValid = false then raise .phaseError (codeInfo codeCprEncode) s
    else if underrun s.pos s.paylen s.n then raise .sourceUnderrun (BitVec.ofNat 32 s.n) s
    else andThen (encodeLoop (chunkCount s.paylen) s.startEncode) fun s => .next { s with srcValid := false }

end Sys2Proof.Machine
end

