-- ==== Sys2Proof/Machine/Framer.lean ====
section
/-! DEFINITION. The container framer: CPR.OPEN and the record it writes, PREAMBLE, and CPR.FINALIZE (43_container_framer.md
R115 to R122, 30_encoding.md R58). -/

namespace Sys2Proof.Machine

/-- The three appends of a preamble, in order (R116). -/
def appendPreamble (len : BitVec Config.LENW) (s : State) : Result :=
  andThen (append tagRiff codeCprOpen s) fun s =>
    andThen (append (le32Bytes len) codeCprOpen s) fun s => append tagAms codeCprOpen s

/-- The new, empty sink of a run; the sink of an earlier run keeps its bytes (R116, R123, R167; log 9). -/
def State.newSink (s : State) : State :=
  { s with pastSinks := if s.sink.isEmpty then s.pastSinks else s.pastSinks ++ [s.sink], sink := [] }

/-- CPR.OPEN exists (R116, R117). -/
def execCprOpen (sinkExists : Bool) (s : State) : Result :=
  unlessFaulted s fun s =>
    if s.phase ≠ .closed then raise .phaseError (codeInfo codeCprOpen) s
    else if sinkExists then raise .sinkExists 0 s
    else andThen (appendPreamble 0 s.newSink) fun s => .next { s with phase := .opened }

/-- PREAMBLE: the record appended to the sink (R58; log 11). -/
def execPreamble (totalLength : BitVec Config.LENW) (s : State) : Result :=
  unlessFaulted s fun s => appendPreamble totalLength s

/-- The container's length field at the end: SLEN - 8 (R118, R119; log 26). -/
def finalLength (slen : Nat) : BitVec Config.LENW := BitVec.ofNat Config.LENW (slen - Config.LEN_BIAS)

/-- CPR.FINALIZE (R118). -/
def execCprFinalize (s : State) : Result :=
  unlessFaulted s fun s =>
    if s.phase ≠ .opened then raise .phaseError (codeInfo codeCprFinalize) s
    else andThen (memWrite Config.LEN_OFF (le32Bytes (finalLength s.slen)) codeCprFinalize s) fun s =>
      .next { s with phase := .final }

end Sys2Proof.Machine
end

