-- ==== Sys2Proof/Machine/Housekeeping.lean ====
section
/-! DEFINITION. RESET, DETAILS.SET (44_run_control.md R123, R124) and an illegal code byte (30_encoding.md R71). -/

namespace Sys2Proof.Machine

/-- RESET (R123, R30): legal in every phase. It touches no sink (R167), and what the host has already handed over (the
command port, the pending answers) is not the block's to clear (log 24). The registers R30 leaves unspecified take the
value log 3 names. -/
def execReset (s : State) : Result :=
  .next { s with
    bank := Config.BANK_RESET, queue := [], details := false, phase := .closed, fault := 0, finfo := 0, slen := 0,
    srcValid := false, source := none, reports := [],
    n := 0, hasHdr := false, paylen := 0, pos := 0, csum := 0, rem := 0, csize := 0, hf := none }

/-- DETAILS.SET d (R124). -/
def execDetailsSet (d : Bool) (s : State) : Result :=
  unlessFaulted s fun s => .next { s with details := d }

/-- A code byte that names no operation (R71, R148). -/
def execIllegal (code : Byte) (s : State) : Result :=
  unlessFaulted s fun s => raise .phaseError (codeInfo code) s

end Sys2Proof.Machine
end

