-- ==== Sys2Proof/Machine/Validator.lean ====
section
/-! DEFINITION. The header validator: HDR.PROBE (40_header_validator.md R75 to R89) and the record it reads, SRC_HDR
(30_encoding.md R55). -/

namespace Sys2Proof.Machine

/-- The registers of a probe that found no header: the whole source is payload (R77, R82), HF without a value (R84). -/
def State.noHeader (s : State) : State :=
  { s with hasHdr := false, paylen := s.n, pos := 0, hf := none }

/-- The registers of a probe that found header `h` (R81, R84). -/
def State.foundHeader (s : State) (h : List Byte) : State :=
  { s with
    hasHdr := true, paylen := (le16 h Config.LLEN_OFF).toNat, pos := Config.HDR_LEN, hf := some (hdrFields h) }

/-- The decision on a full probe `h` of 128 bytes: checksum, comparison, match or mismatch (R79 to R82). -/
def probeHeader (h : List Byte) (s : State) : State :=
  let s := { s with csum := checksum h }
  if headerPresent h then s.foundHeader h else s.noHeader

/-- The event of a probe (R86). -/
def State.probeReport (s : State) : Report :=
  match s.hasHdr, s.hf with
  | true, some f => .header f
  | _, _ => .noHeader

/-- HDR.PROBE's length step: bind, query, refuse a source of 2^32 bytes or more with nothing bound (R76, R146; log 16). -/
def bindSource (src : Source) (s : State) : Result :=
  andThen (srcLen codeHdrProbe { s with source := some src }) fun s =>
    if sourceTooLong s.sourceLen then raise .sourceTooLong 0 { s with source := none }
    else .next { s with n := s.sourceLen }

/-- HDR.PROBE's three-way choice: short source, match, mismatch (R77, R78, R128). -/
def probeSource (s : State) : Result :=
  if shortSource s.n then .next s.noHeader
  else andThen (memRead 0 Config.HDR_LEN codeHdrProbe s) fun s =>
    .next (probeHeader (s.sourceBytes 0 Config.HDR_LEN) s)

/-- HDR.PROBE's end: SRC_VALID, and the report when DETAILS is set (R75, R86). -/
def finishProbe (s : State) : State :=
  { s with srcValid := true, reports := if s.details then s.reports ++ [s.probeReport] else s.reports }

/-- HDR.PROBE s (R75). -/
def execHdrProbe (src : Source) (s : State) : Result :=
  unlessFaulted s fun s =>
    andThen (bindSource src s) fun s => andThen (probeSource s) fun s => .next (finishProbe s)

/-- SRC_HDR: the record's 128 bytes taken as a full probe of the bound source (R55, R79 to R84; log 11). -/
def execSrcHdr (h : SrcHdr) (s : State) : Result :=
  unlessFaulted s fun s => .next (probeHeader h.bytes s)

end Sys2Proof.Machine
end

