-- ==== Sys2Proof/Machine/Macros.lean ====
section
/-! DEFINITION. The pseudo-operations CONVERT and RUN (44_run_control.md R125 to R127): the operations of their expansion,
one after the other; a fault at any step leaves every later step without effect (R125, R157). -/

namespace Sys2Proof.Machine

/-- CONVERT s: HDR.PROBE s, then CPR.ENCODE (R126). -/
def execConvert (src : Source) (s : State) : Result := andThen (execHdrProbe src s) execCprEncode

/-- RUN's loop over the sources, in input order; without a sink the sources are only probed (R125, R127). -/
def runSources (sink : Bool) : List Source → State → Result
  | [], s => .next s
  | src :: rest, s =>
    andThen (if sink then execConvert src s else execHdrProbe src s) (runSources sink rest)

/-- RUN (R125, R127, R138). -/
def execRun (sources : List Source) (banks : Option (List Int)) (details sink sinkExists : Bool) (s : State) : Result :=
  andThen (execDetailsSet details s) fun s =>
    andThen (match banks with | some list => execBanksLoad list s | none => .next s) fun s =>
      andThen (if sink then execCprOpen sinkExists s else .next s) fun s =>
        andThen (runSources sink sources s) fun s => if sink then execCprFinalize s else .next s

end Sys2Proof.Machine
end

