-- ==== Sys2Proof/Machine/Dispatch.lean ====
section
/-! DEFINITION. One arm per constructor of Instr: the instruction's meaning. -/

namespace Sys2Proof.Machine

def exec (i : Instr) (s : State) : Host.Outcome State Fault Refusal :=
  match i with
  | .reset => Sys2Proof.Machine.execReset s
  | .detailsSet d => Sys2Proof.Machine.execDetailsSet d s
  | .banksLoad list => Sys2Proof.Machine.execBanksLoad list s
  | .hdrProbe src => Sys2Proof.Machine.execHdrProbe src s
  | .cprOpen sinkExists => Sys2Proof.Machine.execCprOpen sinkExists s
  | .cprEncode => Sys2Proof.Machine.execCprEncode s
  | .cprFinalize => Sys2Proof.Machine.execCprFinalize s
  | .illegal code => Sys2Proof.Machine.execIllegal code s
  | .bankFirst => Sys2Proof.Machine.execBankFirst s
  | .bankNext => Sys2Proof.Machine.execBankNext s
  | .chunkEmit => Sys2Proof.Machine.execChunkEmit s
  | .convert src => Sys2Proof.Machine.execConvert src s
  | .run sources banks details sink sinkExists => Sys2Proof.Machine.execRun sources banks details sink sinkExists s
  | .srcHdr h => Sys2Proof.Machine.execSrcHdr h s
  | .preamble totalLength => Sys2Proof.Machine.execPreamble totalLength s
  | .chunk bank payload => Sys2Proof.Machine.execChunk bank payload s

end Sys2Proof.Machine
end

