-- ==== Sys2Proof/Machine/Step.lean ====
section
/-! DEFINITION. One step: the block takes the next command the host has issued and runs its operation whole (00_scope.md
R3, 60_exceptions.md R155; log 1, log 18). With nothing issued it waits (70_reset_and_hazards.md R166). -/

namespace Sys2Proof.Machine

def step (s : State) : Host.Outcome State Fault Refusal :=
  match fetchInstr s with
  | none => .next s
  | some (i, t) => exec i t

/-- `s` with the command of a table word (operands zero) issued ahead of everything else, so that the next step runs it. -/
def State.withFetchWord (s : State) (nbits w : Nat) : State := { s with port := tableCommand nbits w :: s.port }

end Sys2Proof.Machine
end

