-- ==== Sys2Proof/Machine/Reference.lean ====
section
/-! DEFINITION. The reference function of a whole run (44_run_control.md R129), pure functions of the sources and the bank
list. It restates the rules; the meanings do not use it. -/

namespace Sys2Proof

/-- `Payload(s)` (R129): none where the declared payload is not all there (SourceUnderrun). -/
def payloadOf (s : Source) : Option (List Byte) :=
  if Config.HDR_LEN ≤ s.length ∧ headerPresent s = true then
    if Config.HDR_LEN + (le16 s Config.LLEN_OFF).toNat ≤ s.length then
      some (bytesAt s Config.HDR_LEN (le16 s Config.LLEN_OFF).toNat)
    else none
  else some s

/-- The payloads of all sources, none where one of them is not all there. -/
def payloadsOf : List Source → Option (List (List Byte))
  | [] => some []
  | s :: rest =>
    match payloadOf s, payloadsOf rest with
    | some p, some ps => some (p :: ps)
    | _, _ => none

/-- A payload cut into pieces of 16384 bytes, the last one shorter (R106). `fuel` is the payload's length. -/
def pieces : Nat → List Byte → List (List Byte)
  | 0, _ => []
  | fuel + 1, p => if p = [] then [] else p.take Config.CHUNK_MAX :: pieces fuel (p.drop Config.CHUNK_MAX)

/-- The pieces of a payload. -/
def piecesOf (p : List Byte) : List (List Byte) := pieces p.length p

/-- One source's pieces as records, the first numbered `bank` and each further one by one more (R93). -/
def numberFrom (bank : Int) : List (List Byte) → List (Int × List Byte)
  | [] => []
  | p :: ps => (bank, p) :: numberFrom (bank + 1) ps

/-- A numbering decision: the bank decided and the queue left (R92). -/
def decideBank (bank : Int) : List Int → Int × List Int
  | b :: rest => (b, rest)
  | [] => (bank + 1, [])

/-- The records of a run's payloads, in order (R129). A payload of length 0 takes no decision (R95). -/
def recordsOf (bank : Int) (queue : List Int) : List (List Byte) → List (Int × List Byte)
  | [] => []
  | p :: ps =>
    if p = [] then recordsOf bank queue ps
    else
      numberFrom (decideBank bank queue).1 (piecesOf p) ++
        recordsOf ((decideBank bank queue).1 + ((piecesOf p).length - 1 : Nat)) (decideBank bank queue).2 ps

/-- The bytes of a sequence of records, back to back (R63). -/
def recordsBytes (records : List (Int × List Byte)) : List Byte := records.flatMap fun r => chunkBytes r.1 r.2

/-- A container of these records with length field `len` (R58, R63). -/
def containerBytes (len : BitVec Config.LENW) (records : List (Int × List Byte)) : List Byte :=
  preambleBytes len ++ recordsBytes records

/-- The finalised container of these records. -/
def finalContainer (records : List (Int × List Byte)) : List Byte :=
  containerBytes (BitVec.ofNat Config.LENW (4 + (recordsBytes records).length)) records

/-- `Container(sources, banks)` (R129): none where a `require` fails. -/
def container (sources : List Source) (banks : List Int) : Option (List Byte) :=
  match payloadsOf sources with
  | none => none
  | some ps =>
    if (recordsOf Config.BANK_RESET banks ps).all (fun r => bankInRange r.1) = true ∧
        4 + (recordsBytes (recordsOf Config.BANK_RESET banks ps)).length ≤ 2 ^ Config.LENW - 1 then
      some (finalContainer (recordsOf Config.BANK_RESET banks ps))
    else none

end Sys2Proof
end

