-- ==== Sys2Proof/Safety.lean ====
section
/-! DEFINITION. The terms claims use: which primitive calls succeed, what a store leaves, what the sink holds, and the
invariant of the block's state. -/

namespace Sys2Proof.Machine

/-- The next `k` primitive calls succeed (`io_error` = 0, R32). -/
abbrev State.ioOk (s : State) (k : Nat) : Prop := ∀ a ∈ s.io.take k, a = IoAnswer.ok

/-- Every primitive call succeeds. -/
abbrev State.ioQuiet (s : State) : Prop := ∀ a ∈ s.io, a = IoAnswer.ok

/-- Every primitive call returns (R179). -/
abbrev State.ioReturns (s : State) : Prop := ∀ a ∈ s.io, a ≠ IoAnswer.never

/-- `m'` is `m` with the bytes `v` stored at `addr`, read byte by byte: every other offset reads as before. -/
def Stored (m m' : Memory) (addr : Nat) (v : List Byte) : Prop :=
  ∀ a, m'.read a = if addr ≤ a ∧ a < addr + v.length then v[a - addr]? else m.read a

/-- The byte space holds exactly the byte string `K`. -/
def Holds (m : Memory) (K : List Byte) : Prop := ∀ a, m.read a = K[a]?

/-- What the host can observe of the block (R33): the sink, the report channel, PHASE, FAULT, FINFO, and the results of a
probe while they are meaningful (R20), HF only when valid (R25). -/
structure Observation where
  sink : Memory
  reports : List Report
  phase : Phase
  fault : BitVec 8
  finfo : BitVec 32
  /-- HAS_HDR, PAYLEN and HF. -/
  probe : Option (Bool × Nat × Option HdrFields)
deriving DecidableEq, Repr

/-- The host's view of a state (R33). -/
def State.observe (s : State) : Observation where
  sink := s.sink
  reports := s.reports
  phase := s.phase
  fault := s.fault
  finfo := s.finfo
  probe := if s.srcValid then some (s.hasHdr, s.paylen, if s.hasHdr then s.hf else none) else none

/-- Every record is one the block may write (R59). -/
def RecordsOk (records : List (Int × List Byte)) : Prop := ∀ r ∈ records, chunkOk r.1 r.2 = true

/-- The register values RESET leaves, as far as the spec gives them (R30, R123). -/
structure JustReset (s : State) : Prop where
  bank : s.bank = Config.BANK_RESET
  queue : s.queue = []
  details : s.details = false
  phase : s.phase = .closed
  fault : s.fault = 0
  finfo : s.finfo = 0
  slen : s.slen = 0
  srcValid : s.srcValid = false
  source : s.source = none
  reports : s.reports = []

/-- What the registers say about the bound source while SRC_VALID = 1 (R20, R36, R77, R81, R82). -/
structure Probed (s : State) (src : Source) : Prop where
  bound : s.source = some src
  length : s.n = src.length
  result :
    (s.hasHdr = false ∧ s.pos = 0 ∧ s.paylen = s.n ∧ s.hf = none) ∨
      (s.hasHdr = true ∧ Config.HDR_LEN ≤ s.n ∧ headerPresent src = true ∧ s.pos = Config.HDR_LEN ∧
        s.paylen = (le16 src Config.LLEN_OFF).toNat ∧ s.hf = some (hdrFields src))

/-- No register leaves the width R10 gives it (D2: "no rule wraps"). -/
structure InWidth (s : State) : Prop where
  n : s.n < Config.SRC_LIMIT
  paylen : s.paylen < Config.SRC_LIMIT
  pos : s.pos < Config.SRC_LIMIT
  rem : s.rem < Config.SRC_LIMIT
  csize : s.csize ≤ Config.CHUNK_MAX
  slen : s.slen ≤ Config.SLEN_MAX
  csum : s.csum.toNat ≤ 16830
  queue : ∀ b ∈ s.queue, bankWordOk b = true
  bank : s.params.zeroSrcConsumes = false → bankWordOk s.bank = true

/-- The invariant of the block. -/
structure BlockInv (s : State) : Prop where
  /-- The byte spaces are in canonical form. -/
  sinkWf : s.sink.wf
  pastWf : ∀ m ∈ s.pastSinks, Memory.wf m
  /-- FAULT is non-zero if and only if PHASE = FAULTED (R18), and then it is one of the eight causes (R141). -/
  faultPhase : s.fault ≠ 0 ↔ s.phase = .faulted
  faultCode : s.fault.toNat ≤ 8
  noInfo : s.fault = 0 → s.finfo = 0
  width : InWidth s
  /-- QUEUE within QDEPTH (R15). -/
  queueFits : queueFits s.params.qdepth s.queue.length = true
  /-- By default BANK is the reset value or a number that was emitted, until a fault (R98). -/
  bank : s.params.zeroSrcConsumes = false → s.phase ≠ .faulted → Config.BANK_RESET ≤ s.bank ∧ s.bank ≤ Config.BANK_MAX
  /-- Nothing written yet in phase CLOSED (R17). -/
  closed : s.phase = .closed → s.slen = 0
  /-- The sink in phase OPEN: preamble with length field 0, then whole records (R64, R121). -/
  opened : s.phase = .opened →
    ∃ records, RecordsOk records ∧ Holds s.sink (containerBytes 0 records) ∧
      s.slen = (containerBytes 0 records).length
  /-- The sink in phase FINAL: a finalised container (R64). -/
  final : s.phase = .final →
    ∃ records, RecordsOk records ∧ Holds s.sink (finalContainer records) ∧
      s.slen = (finalContainer records).length
  /-- A probed source is bound and the registers describe it (R20). -/
  probed : s.phase ≠ .faulted → s.srcValid = true → ∃ src, Probed s src

/-- Instructions run one after the other, up to the first stop. -/
def execAll : List Instr → State → Result
  | [], s => .next s
  | i :: rest, s =>
    match exec i s with
    | .next t => execAll rest t
    | .fault f => .fault f
    | .refused e => .refused e

/-- The micro-operations of a CPR.ENCODE of `c` chunks (R100, R113): one BANK.FIRST, `c` CHUNK.EMIT, `c - 1` BANK.NEXT. -/
def encodeMicroOps : Nat → List Instr
  | 0 => []
  | c + 1 => .bankFirst :: .chunkEmit :: (List.replicate c [Instr.bankNext, Instr.chunkEmit]).flatten

/-- The records of one source's payload (R106, R110, R113): chunk k carries bank `first + k` and the payload's bytes from
CHUNK_MAX·k on. -/
def sourceRecords (first : Int) (payload : List Byte) : List (Int × List Byte) :=
  (List.range (chunkCount payload.length)).map fun k : Nat =>
    (first + (k : Int), (payload.drop (Config.CHUNK_MAX * k)).take Config.CHUNK_MAX)

/-- The number a source's first chunk carries (R92). -/
def firstBank (s : State) : Int := s.queue.headD (s.bank + 1)

/-- The event of a probe of `src` (R86, R80). -/
def reportOf (src : Source) : Report :=
  if Config.HDR_LEN ≤ src.length ∧ headerPresent src = true then .header (hdrFields src) else .noHeader

/-- The allowed phases of R148's table, for the operations the host issues; every other row has no phase of its own. -/
def phaseAllows (i : Instr) (s : State) : Bool :=
  match i, s.phase with
  | .banksLoad _, .closed => true
  | .banksLoad _, _ => false
  | .cprOpen _, .closed => true
  | .cprOpen _, _ => false
  | .cprEncode, .opened => s.srcValid
  | .cprEncode, _ => false
  | .cprFinalize, .opened => true
  | .cprFinalize, _ => false
  | .illegal _, _ => false
  | _, _ => true

/-- An answer with everything about the details report left out (R16, R86). -/
def withoutReport (r : Result) : Result :=
  match r with
  | .next s => .next { s with details := false, reports := [] }
  | .fault f => .fault f
  | .refused e => .refused e

end Sys2Proof.Machine
end

