-- ==== Sys2Proof/Certificates/Slice0/Obligations.lean ====
section
/-! DEFINITION. The statements for the provers. Each docstring names the rule of spec/ it formalises, or says that it
rests on a choice of the model and names the log entry.

The fields `port` (log 1), `io` (log 5), `freeDraws` (log 6), `pastSinks` (log 9) and `params` (log 14) are the model's own
form of what the host hands over. A clause that says what becomes of them rests on that log entry, not on a rule. -/

open Sys2Proof Sys2Proof.Machine

/-! ## Reset and housekeeping -/

/-- R123, R167: RESET in every phase. The registers the spec gives no reset value are left unsaid, HF but for having none. -/
def Obligations.ResetPutsInitialState : Prop :=
  ∀ s : State, ∃ t, exec .reset s = .next t ∧ JustReset t ∧ t.hf = none ∧
    t.sink = s.sink ∧ t.pastSinks = s.pastSinks

/-- R30: the state after reset, as far as the spec gives it, and R166: nothing issued. -/
def Obligations.StateAfterReset : Prop :=
  JustReset State.reset ∧ State.reset.hf = none ∧ State.reset.port = []

/-- R124. -/
def Obligations.DetailsSetWritesTheFlag : Prop :=
  ∀ (d : Bool) (s : State),
    (s.phase ≠ .faulted → exec (.detailsSet d) s = .next { s with details := d }) ∧
      (s.phase = .faulted → exec (.detailsSet d) s = .next s)

/-- R71; that the block takes the command from the port is log 1: the decoder rejects exactly the code bytes R70 does not assign, and the block handed one raises PhaseError with
FINFO = the code byte. -/
def Obligations.IllegalCodeRejectedAndRaised : Prop :=
  ∀ c : Command,
    ((∃ i, decode c = .ok i) ↔ c.code ∈ [0x00#8, 0x01#8, 0x02#8, 0x10#8, 0x20#8, 0x21#8, 0x22#8]) ∧
      (c.code ∉ [0x00#8, 0x01#8, 0x02#8, 0x10#8, 0x20#8, 0x21#8, 0x22#8] →
        decode c = .error (.illegalCode c.code) ∧
          ∀ (s : State) (rest : List Command), s.phase ≠ .faulted →
            step { s with port := c :: rest } =
              .next { s with port := rest, fault := 7, finfo := c.code.setWidth 32, phase := .faulted })

/-- R71, R148: the ILLEGAL row. -/
def Obligations.IllegalRaisesPhaseError : Prop :=
  ∀ (code : Byte) (s : State), s.phase ≠ .faulted →
    exec (.illegal code) s = .next { s with fault := 7, finfo := code.setWidth 32, phase := .faulted }

/-! ## The header validator -/

/-- R77: a source shorter than 128 bytes, and its frame. -/
def Obligations.ShortProbeTakesWholeSource : Prop :=
  ∀ (src : Source) (s : State), s.phase ≠ .faulted → s.ioOk 1 → src.length < 128 →
    exec (.hdrProbe src) s = .next { s with
      source := some src, n := src.length, hasHdr := false, paylen := src.length, pos := 0, hf := none,
      srcValid := true, reports := s.reports ++ (if s.details then [.noHeader] else []), io := s.io.drop 1 }

/-- R75, R76, R79 to R82, R84, R86: a probe of 128 bytes or more, and its frame (HF absent on a mismatch: log 4; two answers
of the oracle used up: log 5). The sum, the comparison and every field are written
out from R79, R80 and R24. -/
def Obligations.FullProbeDecidesByChecksum : Prop :=
  ∀ (src : Source) (s : State) (b : Nat → Nat) (sum : Nat),
    (∀ i, b i = (src.getD i 0).toNat) → sum = ((List.range 66).map b).sum % 65536 →
    s.phase ≠ .faulted → s.ioOk 2 → 128 ≤ src.length → src.length < 2 ^ 32 →
    (sum = b 67 + 256 * b 68 →
      ∀ f : HdrFields,
        f = { owner := BitVec.ofNat 8 (b 0), name := (src.drop 1).take 8, ext := (src.drop 9).take 3,
              block := BitVec.ofNat 8 (b 16), last := BitVec.ofNat 8 (b 17), ftype := BitVec.ofNat 8 (b 18),
              dataloc := BitVec.ofNat 16 (b 19 + 256 * b 20), loadaddr := BitVec.ofNat 16 (b 21 + 256 * b 22),
              first := BitVec.ofNat 8 (b 23), loglen := BitVec.ofNat 16 (b 24 + 256 * b 25),
              entry := BitVec.ofNat 16 (b 26 + 256 * b 27),
              reallen := BitVec.ofNat 24 (b 64 + 256 * b 65 + 65536 * b 66),
              cksum := BitVec.ofNat 16 (b 67 + 256 * b 68) } →
        exec (.hdrProbe src) s = .next { s with
          source := some src, n := src.length, csum := BitVec.ofNat 16 sum, hasHdr := true,
          paylen := b 24 + 256 * b 25, pos := 128, hf := some f, srcValid := true,
          reports := s.reports ++ (if s.details then [.header f] else []), io := s.io.drop 2 }) ∧
    (sum ≠ b 67 + 256 * b 68 →
      exec (.hdrProbe src) s = .next { s with
        source := some src, n := src.length, csum := BitVec.ofNat 16 sum, hasHdr := false, paylen := src.length,
        pos := 0, hf := none, srcValid := true,
        reports := s.reports ++ (if s.details then [.noHeader] else []), io := s.io.drop 2 })

/-- R146: a source of 2^32 bytes or more. -/
def Obligations.TooLongSourceFaults : Prop :=
  ∀ (src : Source) (s : State), s.phase ≠ .faulted → s.ioOk 1 → 2 ^ 32 ≤ src.length →
    exec (.hdrProbe src) s = .next { s with
      source := none, fault := 5, finfo := 0, phase := .faulted, io := s.io.drop 1 }

/-- R67: a stored checksum over 16830 never matches. -/
def Obligations.LargeStoredChecksumNeverMatches : Prop :=
  ∀ (src : Source) (s t : State), s.phase ≠ .faulted → 128 ≤ src.length →
    16830 < (src.getD 67 0).toNat + 256 * (src.getD 68 0).toNat →
    exec (.hdrProbe src) s = .next t → t.phase ≠ .faulted → t.hasHdr = false ∧ t.paylen = src.length ∧ t.pos = 0

/-- R56, R57 and R89's corner cases: the bytes at offset 66 and from 69 on have no effect on what the probe decides. (Byte 66
is the top byte of HF.REALLEN, so HF and the report may differ.) -/
def Obligations.UnsummedBytesDoNotDecide : Prop :=
  ∀ (a b : Source) (s t u : State), a.length = b.length → 128 ≤ a.length →
    (∀ i, i < 66 ∨ i = 67 ∨ i = 68 → a.getD i 0 = b.getD i 0) →
    exec (.hdrProbe a) s = .next t → exec (.hdrProbe b) s = .next u →
    t.hasHdr = u.hasHdr ∧ t.paylen = u.paylen ∧ t.pos = u.pos ∧ t.csum = u.csum ∧ t.phase = u.phase

/-- SRC_HDR as a record handed to the validator (its effect is the model's choice, log 11), completing in both cases. -/
def Obligations.SourceHeaderRecordDecides : Prop :=
  ∀ (h : SrcHdr) (s : State), s.phase ≠ .faulted → h.lengthsOk = true →
    (checksum h.bytes = h.cksum →
      exec (.srcHdr h) s = .next { s with
        csum := checksum h.bytes, hasHdr := true, paylen := h.loglen.toNat, pos := 128,
        hf := some { owner := h.owner, name := h.name, ext := h.ext, block := h.block, last := h.last,
                     ftype := h.ftype, dataloc := h.dataloc, loadaddr := h.loadaddr, first := h.first,
                     loglen := h.loglen, entry := h.entry, reallen := h.reallen, cksum := h.cksum } }) ∧
    (checksum h.bytes ≠ h.cksum →
      exec (.srcHdr h) s = .next { s with
        csum := checksum h.bytes, hasHdr := false, paylen := s.n, pos := 0, hf := none })

/-! ## The bank-number sequencer -/

/-- R91, R149: every case of BANKS.LOAD, and its frame. -/
def Obligations.BanksLoadReplacesTheQueue : Prop :=
  ∀ (list : List Int) (s : State),
    (s.phase = .faulted → exec (.banksLoad list) s = .next s) ∧
    (s.phase ≠ .faulted → s.phase ≠ .closed →
      exec (.banksLoad list) s = .next { s with fault := 7, finfo := 0x02, phase := .faulted }) ∧
    (s.phase = .closed → (∀ d, s.params.qdepth = some d → list.length ≤ d) →
      exec (.banksLoad list) s = .next { s with queue := list }) ∧
    (∀ d, s.phase = .closed → s.params.qdepth = some d → d < list.length →
      exec (.banksLoad list) s = .next { s with
        fault := 8, finfo := BitVec.ofNat 32 (min list.length (2 ^ 32 - 1)), phase := .faulted })

/-- R92. -/
def Obligations.BankFirstPopsOrIncrements : Prop :=
  ∀ s : State, s.phase ≠ .faulted →
    (∀ b rest, s.queue = b :: rest → exec .bankFirst s = .next { s with bank := b, queue := rest }) ∧
      (s.queue = [] → exec .bankFirst s = .next { s with bank := s.bank + 1 })

/-- R93. -/
def Obligations.BankNextIncrements : Prop :=
  ∀ s : State, s.phase ≠ .faulted → exec .bankNext s = .next { s with bank := s.bank + 1 }

/-! ## The chunk encoder -/

/-- R105 to R107, R110: CHUNK.EMIT, run on its own (log 10), appends one record, and its frame (five answers of the oracle
used up: log 5). -/
def Obligations.ChunkEmitAppendsOneRecord : Prop :=
  ∀ (s : State) (src : Source) (c v : Nat), s.phase ≠ .faulted → s.source = some src → c = min 16384 s.rem →
    0 ≤ s.bank → s.bank ≤ 99 → v = s.bank.toNat → s.slen + 8 + c ≤ 2 ^ 32 + 7 → s.pos + c ≤ src.length → s.ioOk 5 →
    ∃ m, Stored s.sink m s.slen
        ([0x63, 0x62, BitVec.ofNat 8 (0x30 + v / 10), BitVec.ofNat 8 (0x30 + v % 10),
          BitVec.ofNat 8 c, BitVec.ofNat 8 (c / 256), BitVec.ofNat 8 (c / 65536), BitVec.ofNat 8 (c / 16777216)] ++
          (src.drop s.pos).take c) ∧
      exec .chunkEmit s = .next { s with
        csize := c, sink := m, slen := s.slen + 8 + c, pos := s.pos + c, rem := s.rem - c, io := s.io.drop 5 }

/-- R108, R144: a bank number two digits cannot carry; no byte of the record is written. Where BANK has no 32-bit word
nothing is said of FINFO (a free value, log 28). -/
def Obligations.ChunkEmitFaultsOnBankRange : Prop :=
  ∀ s : State, s.phase ≠ .faulted → (s.bank < 0 ∨ 99 < s.bank) →
    ∃ info, (-2 ^ 31 ≤ s.bank → s.bank < 2 ^ 31 → info = BitVec.ofInt 32 s.bank) ∧
      exec .chunkEmit s = .next { s with
        csize := min 16384 s.rem, fault := 3, finfo := info, phase := .faulted }

/-- R109, R147: a record that would take the container past its length field; no byte of it is written. -/
def Obligations.ChunkEmitFaultsOnOverflow : Prop :=
  ∀ s : State, s.phase ≠ .faulted → 0 ≤ s.bank → s.bank ≤ 99 → 2 ^ 32 + 7 < s.slen + 8 + min 16384 s.rem →
    exec .chunkEmit s = .next { s with
      csize := min 16384 s.rem, fault := 6, finfo := BitVec.ofNat 32 (min 16384 s.rem), phase := .faulted }

/-- CHUNK as a record handed to the block (its effect is the model's choice, log 11): appended, after the tests of R108
and R109. -/
def Obligations.ChunkRecordIsAppended : Prop :=
  ∀ (bank : Int) (payload : List Byte) (s : State), s.phase ≠ .faulted → chunkOk bank payload = true →
    (s.slen + 8 + payload.length ≤ 2 ^ 32 + 7 → s.ioOk 4 →
      ∃ m, Stored s.sink m s.slen (chunkBytes bank payload) ∧
        exec (.chunk bank payload) s = .next { s with
          sink := m, slen := s.slen + 8 + payload.length, io := s.io.drop 4 }) ∧
    (2 ^ 32 + 7 < s.slen + 8 + payload.length →
      exec (.chunk bank payload) s = .next { s with
        fault := 6, finfo := BitVec.ofNat 32 payload.length, phase := .faulted })

/-- R113, R106, R110: a CPR.ENCODE that completes appends ceil(PAYLEN/16384) records, which carry the payload in order
under consecutive bank numbers, and its frame. -/
def Obligations.EncodeAppendsThePayload : Prop :=
  ∀ (s : State) (src : Source) (payload : List Byte) (c : Nat) (records : List (Int × List Byte)),
    s.phase = .opened → s.srcValid = true → s.source = some src → s.n = src.length → s.pos + s.paylen ≤ s.n →
    payload = (src.drop s.pos).take s.paylen → 0 < s.paylen → c = (s.paylen + 16383) / 16384 →
    records = sourceRecords (firstBank s) payload → 0 ≤ firstBank s → firstBank s + (c : Int) ≤ 100 →
    s.slen + 8 * c + s.paylen ≤ 2 ^ 32 + 7 → s.ioOk (5 * c) →
    records.length = c ∧ (∀ r ∈ records, 1 ≤ r.2.length ∧ r.2.length ≤ 16384) ∧
      records.flatMap (fun r => r.2) = payload ∧
      ∃ m, Stored s.sink m s.slen (records.flatMap fun r => chunkBytes r.1 r.2) ∧
        exec .cprEncode s = .next { s with
          bank := firstBank s + ((c - 1 : Nat) : Int), queue := s.queue.tail, srcValid := false,
          csize := s.paylen - 16384 * (c - 1), rem := 0, pos := s.pos + s.paylen, sink := m,
          slen := s.slen + 8 * c + s.paylen, io := s.io.drop (5 * c) }

/-- R103, R95: a payload of length 0 writes no record and, by default, takes no numbering decision. -/
def Obligations.EncodeOfEmptyPayloadWritesNothing : Prop :=
  ∀ s : State, s.phase = .opened → s.srcValid = true → s.paylen = 0 → s.pos ≤ s.n →
    (s.params.zeroSrcConsumes = false →
      exec .cprEncode s = .next { s with rem := 0, srcValid := false }) ∧
    (s.params.zeroSrcConsumes = true →
      exec .cprEncode s = .next { s with
        rem := 0, srcValid := false, bank := firstBank s, queue := s.queue.tail })

/-- R102, R145: a source shorter than its header says. -/
def Obligations.EncodeFaultsOnUnderrun : Prop :=
  ∀ s : State, s.phase = .opened → s.srcValid = true → s.n < s.pos + s.paylen →
    exec .cprEncode s = .next { s with fault := 4, finfo := BitVec.ofNat 32 s.n, phase := .faulted }

/-- R100, R104, R111, R113: CPR.ENCODE is its micro-operations, one BANK.FIRST and c - 1 BANK.NEXT among them, whatever
they end in; SRC_VALID is cleared if none of them recorded a fault. -/
def Obligations.EncodeIsItsMicroOperations : Prop :=
  ∀ s : State, s.phase = .opened → s.srcValid = true → s.pos + s.paylen ≤ s.n → 0 < s.paylen →
    exec .cprEncode s =
      match execAll (encodeMicroOps ((s.paylen + 16383) / 16384)) { s with rem := s.paylen } with
      | .next t => .next (if t.phase = .faulted then t else { t with srcValid := false })
      | .fault f => .fault f
      | .refused e => .refused e

/-! ## The container framer -/

/-- R116, R115: CPR.OPEN of a new sink, and its frame; the sink of an earlier run is kept (log 9). -/
def Obligations.OpenWritesThePreamble : Prop :=
  ∀ s : State, s.phase = .closed → s.slen = 0 → s.ioOk 3 →
    ∃ m, Holds m [0x52, 0x49, 0x46, 0x46, 0, 0, 0, 0, 0x41, 0x4D, 0x53, 0x21] ∧
      exec (.cprOpen false) s = .next { s with
        sink := m, slen := 12, phase := .opened, io := s.io.drop 3,
        pastSinks := s.pastSinks ++ (if s.sink = [] then [] else [s.sink]) }

/-- R117, R142: the requested output exists; nothing is written. -/
def Obligations.OpenOfExistingOutputFaults : Prop :=
  ∀ s : State, s.phase = .closed →
    exec (.cprOpen true) s = .next { s with fault := 1, finfo := 0, phase := .faulted }

/-- R118: CPR.FINALIZE patches the length field with SLEN - 8 and writes no other byte. -/
def Obligations.FinalizePatchesTheLength : Prop :=
  ∀ (s : State) (v : Nat), s.phase = .opened → v + 8 = s.slen → s.ioOk 1 →
    ∃ m, Stored s.sink m 4
        [BitVec.ofNat 8 v, BitVec.ofNat 8 (v / 256), BitVec.ofNat 8 (v / 65536), BitVec.ofNat 8 (v / 16777216)] ∧
      exec .cprFinalize s = .next { s with sink := m, phase := .final, io := s.io.drop 1 }

/-- PREAMBLE as a record handed to the block (its effect is the model's choice, log 11): appended, R58's bytes. -/
def Obligations.PreambleRecordIsAppended : Prop :=
  ∀ (len : BitVec 32) (s : State), s.phase ≠ .faulted → s.ioOk 3 →
    ∃ m, Stored s.sink m s.slen
        [0x52, 0x49, 0x46, 0x46, BitVec.ofNat 8 len.toNat, BitVec.ofNat 8 (len.toNat / 256),
          BitVec.ofNat 8 (len.toNat / 65536), BitVec.ofNat 8 (len.toNat / 16777216), 0x41, 0x4D, 0x53, 0x21] ∧
      exec (.preamble len) s = .next { s with sink := m, slen := s.slen + 12, io := s.io.drop 3 }

/-! ## Pseudo-operations and whole runs -/

/-- R126: CONVERT is HDR.PROBE followed by CPR.ENCODE, a faulting probe included. -/
def Obligations.ConvertIsProbeThenEncode : Prop :=
  ∀ (src : Source) (s : State), exec (.convert src) s = execAll [.hdrProbe src, .cprEncode] s

/-- R126 with R129's `Payload`: CONVERT in an open container appends the source's payload. -/
def Obligations.ConvertAppendsThePayload : Prop :=
  ∀ (src : Source) (s : State) (payload : List Byte) (c : Nat),
    s.phase = .opened → s.params.zeroSrcConsumes = false → src.length < 2 ^ 32 → payloadOf src = some payload →
    c = (payload.length + 16383) / 16384 → (0 < c → 0 ≤ firstBank s ∧ firstBank s + (c : Int) ≤ 100) →
    s.slen + 8 * c + payload.length ≤ 2 ^ 32 + 7 → s.ioOk (2 + 5 * c) →
    ∃ t, exec (.convert src) s = .next t ∧
      Stored s.sink t.sink s.slen ((sourceRecords (firstBank s) payload).flatMap fun r => chunkBytes r.1 r.2) ∧
      t.slen = s.slen + 8 * c + payload.length ∧ t.srcValid = false ∧ t.phase = .opened ∧ t.fault = s.fault ∧
      t.finfo = s.finfo ∧ t.source = some src ∧ t.details = s.details ∧ t.pastSinks = s.pastSinks ∧
      t.bank = (if c = 0 then s.bank else firstBank s + ((c - 1 : Nat) : Int)) ∧
      t.queue = (if c = 0 then s.queue else s.queue.tail) ∧
      t.reports = s.reports ++ (if s.details then [reportOf src] else [])

/-- R129: a fault-free RUN with a sink, from a just-reset block, makes exactly the reference container. -/
def Obligations.RunMakesTheReferenceContainer : Prop :=
  ∀ (sources : List Source) (banks : Option (List Int)) (details : Bool) (s : State) (K : List Byte),
    JustReset s → s.params.zeroSrcConsumes = false → s.ioQuiet → (∀ src ∈ sources, src.length < 2 ^ 32) →
    (∀ d, s.params.qdepth = some d → (banks.getD []).length ≤ d) →
    container sources (banks.getD []) = some K →
    ∃ t, exec (.run sources banks details true false) s = .next t ∧ Holds t.sink K ∧ t.slen = K.length ∧
      t.phase = .final ∧ t.fault = 0

/-- R136, R64, R63: reading that container back gives the payloads of the sources in input order, and its length field is
the stream length minus 8. -/
def Obligations.RunContainerReadsBack : Prop :=
  ∀ (sources : List Source) (banks : Option (List Int)) (details : Bool) (s : State) (K : List Byte),
    JustReset s → s.params.zeroSrcConsumes = false → s.ioQuiet → (∀ src ∈ sources, src.length < 2 ^ 32) →
    (∀ d, s.params.qdepth = some d → (banks.getD []).length ≤ d) →
    container sources (banks.getD []) = some K →
    ∃ t records payloads, exec (.run sources banks details true false) s = .next t ∧ Holds t.sink K ∧
      scanContainer K = .ok records ∧ payloadsOf sources = some payloads ∧
      records.flatMap (fun r => r.2) = payloads.flatten ∧
      (∀ r ∈ records, 1 ≤ r.2.length ∧ r.2.length ≤ 16384) ∧ (le32 K 4).toNat + 8 = K.length

/-- R133: with no explicit list the k-th record of a run carries bank number k. -/
def Obligations.RunWithoutListNumbersFromZero : Prop :=
  ∀ (sources : List Source) (details : Bool) (s : State) (K : List Byte),
    JustReset s → s.params.zeroSrcConsumes = false → s.ioQuiet → (∀ src ∈ sources, src.length < 2 ^ 32) →
    container sources [] = some K →
    ∃ t records, exec (.run sources none details true false) s = .next t ∧ Holds t.sink K ∧
      scanContainer K = .ok records ∧
      records.map (fun r => r.1) = (List.range records.length).map (fun k : Nat => (k : Int))

/-- R120, R138: a run all of whose sources have payload length 0, no source at all included, gives the 12-byte container. -/
def Obligations.EmptyRunMakesTheEmptyContainer : Prop :=
  ∀ (sources : List Source) (banks : Option (List Int)) (details : Bool) (s : State),
    JustReset s → s.params.zeroSrcConsumes = false → s.ioQuiet → (∀ src ∈ sources, src.length < 2 ^ 32) →
    (∀ d, s.params.qdepth = some d → (banks.getD []).length ≤ d) → (∀ src ∈ sources, payloadOf src = some []) →
    ∃ t, exec (.run sources banks details true false) s = .next t ∧ t.phase = .final ∧ t.fault = 0 ∧ t.slen = 12 ∧
      Holds t.sink [0x52, 0x49, 0x46, 0x46, 4, 0, 0, 0, 0x41, 0x4D, 0x53, 0x21]

/-- R134: list [5, 9] and two sources of one chunk each. -/
def Obligations.ExplicitListNumbersTheSources : Prop :=
  ∀ (a b : Source) (p q : List Byte) (details : Bool) (s : State),
    JustReset s → s.params.zeroSrcConsumes = false → s.ioQuiet → a.length < 2 ^ 32 → b.length < 2 ^ 32 →
    (∀ d, s.params.qdepth = some d → 2 ≤ d) → payloadOf a = some p → payloadOf b = some q →
    1 ≤ p.length → p.length ≤ 16384 → 1 ≤ q.length → q.length ≤ 16384 →
    ∃ t, exec (.run [a, b] (some [5, 9]) details true false) s = .next t ∧ t.phase = .final ∧ t.fault = 0 ∧
      Holds t.sink (finalContainer [(5, p), (9, q)])

/-- R135: list [5] and one source of two chunks. -/
def Obligations.CounterContinuesFromTheList : Prop :=
  ∀ (a : Source) (p : List Byte) (details : Bool) (s : State),
    JustReset s → s.params.zeroSrcConsumes = false → s.ioQuiet → a.length < 2 ^ 32 →
    (∀ d, s.params.qdepth = some d → 1 ≤ d) → payloadOf a = some p → 16384 < p.length → p.length ≤ 32768 →
    ∃ t, exec (.run [a] (some [5]) details true false) s = .next t ∧ t.phase = .final ∧ t.fault = 0 ∧
      Holds t.sink (finalContainer [(5, p.take 16384), (6, p.drop 16384)])

/-- R136: sources of 100 and 20000 bytes without headers. -/
def Obligations.TwoSourceRunMakesThreeRecords : Prop :=
  ∀ (a b : Source) (details : Bool) (s : State),
    JustReset s → s.params.zeroSrcConsumes = false → s.ioQuiet → a.length = 100 → b.length = 20000 →
    headerPresent b = false →
    ∃ t K, exec (.run [a, b] none details true false) s = .next t ∧ t.phase = .final ∧ t.fault = 0 ∧
      Holds t.sink K ∧ t.slen = 20136 ∧ K.length = 20136 ∧ (K.drop 4).take 4 = [0xA0, 0x4E, 0, 0] ∧
      scanContainer K = .ok [(0, a), (1, b.take 16384), (2, b.drop 16384)]

/-- R137, R125: RUN to an output that exists probes no source, reports nothing and writes nothing. -/
def Obligations.RunToExistingOutputFaults : Prop :=
  ∀ (sources : List Source) (banks : Option (List Int)) (details : Bool) (s : State), JustReset s →
    (∀ d, s.params.qdepth = some d → (banks.getD []).length ≤ d) →
    exec (.run sources banks details true true) s = .next { s with
      details := details, queue := banks.getD [], fault := 1, finfo := 0, phase := .faulted }

/-- R127: a details-only run. -/
def Obligations.DetailsOnlyRunOnlyReports : Prop :=
  ∀ (sources : List Source) (banks : Option (List Int)) (details sinkExists : Bool) (s : State),
    JustReset s → s.ioQuiet → (∀ src ∈ sources, src.length < 2 ^ 32) →
    (∀ d, s.params.qdepth = some d → (banks.getD []).length ≤ d) →
    ∃ t, exec (.run sources banks details false sinkExists) s = .next t ∧ t.bank = s.bank ∧
      t.queue = banks.getD [] ∧ t.slen = 0 ∧ t.phase = .closed ∧ t.fault = 0 ∧ t.sink = s.sink ∧
      t.pastSinks = s.pastSinks ∧ t.reports = (if details then sources.map reportOf else [])

/-! ## Faults -/

/-- R157: in phase FAULTED everything but RESET changes nothing. -/
def Obligations.FaultedIgnoresEverythingButReset : Prop :=
  ∀ (i : Instr) (s : State), s.phase = .faulted → i ≠ .reset → exec i s = .next s

/-- R148: the phase table, for a block that has recorded no fault. -/
def Obligations.PhaseTableHolds : Prop :=
  ∀ (i : Instr) (s : State) (c : Command), encodeOp i = some c → s.phase ≠ .faulted →
    (phaseAllows i s = false →
      exec i s = .next { s with fault := 7, finfo := c.code.setWidth 32, phase := .faulted }) ∧
    (phaseAllows i s = true → ∀ t, exec i s = .next t → s.fault = 0 → t.fault ≠ 7)

/-- R18, R141, R150: whatever runs, FAULT is non-zero exactly in phase FAULTED, and then it is one of the eight causes. -/
def Obligations.FaultIsRecordedExactlyWhenFaulted : Prop :=
  ∀ (i : Instr) (s t : State), (s.fault ≠ 0 ↔ s.phase = .faulted) → s.fault.toNat ≤ 8 → exec i s = .next t →
    (t.fault ≠ 0 ↔ t.phase = .faulted) ∧ t.fault.toNat ≤ 8

/-- R143: a failed write of CPR.FINALIZE: the sink outside the failed call, and every register but FAULT, FINFO and PHASE,
as before. The failed call's own bytes are free (log 6), so nothing is said of them. -/
def Obligations.FailedFinalizeLeavesTheRest : Prop :=
  ∀ (s : State) (rest : List IoAnswer), s.phase = .opened → s.io = .error :: rest →
    ∃ m k, (∀ a, a < 4 ∨ 8 ≤ a → Memory.read m a = Memory.read s.sink a) ∧
      exec .cprFinalize s = .next { s with
        sink := m, freeDraws := k, fault := 2, finfo := 0x22, phase := .faulted, io := rest }

/-- R143, R151: a failed append of CHUNK.EMIT's payload: the bytes of the earlier calls stand, SLEN is the length before the
failed call, POS and REM are as before. -/
def Obligations.FailedPayloadAppendKeepsEarlierBytes : Prop :=
  ∀ (s : State) (src : Source) (c : Nat) (rest : List IoAnswer), s.phase ≠ .faulted → s.source = some src →
    c = min 16384 s.rem → 0 ≤ s.bank → s.bank ≤ 99 → s.slen + 8 + c ≤ 2 ^ 32 + 7 → s.pos + c ≤ src.length →
    s.io = .ok :: .ok :: .ok :: .ok :: .error :: rest →
    ∃ m k, (∀ a, a < s.slen + 8 ∨ s.slen + 8 + c ≤ a →
        Memory.read m a =
          if s.slen ≤ a ∧ a < s.slen + 8 then
            (chunkBytes s.bank ((src.drop s.pos).take c))[a - s.slen]?
          else Memory.read s.sink a) ∧
      exec .chunkEmit s = .next { s with
        csize := c, sink := m, slen := s.slen + 8, freeDraws := k, fault := 2, finfo := 0x21, phase := .faulted,
        io := rest }

/-- R143, R154: a failed length query, and a failed probe read. -/
def Obligations.FailedProbeRecordsIoFailure : Prop :=
  ∀ (src : Source) (s : State) (rest : List IoAnswer), s.phase ≠ .faulted →
    (s.io = .error :: rest →
      exec (.hdrProbe src) s = .next { s with
        source := some src, fault := 2, finfo := 0x10, phase := .faulted, io := rest }) ∧
    (s.io = .ok :: .error :: rest → 128 ≤ src.length → src.length < 2 ^ 32 →
      exec (.hdrProbe src) s = .next { s with
        source := some src, n := src.length, fault := 2, finfo := 0x10, phase := .faulted, io := rest })

/-- R152, R151: after a step that faults for any cause but IoFailure the sink is whole records, or was not written. -/
def Obligations.PreciseFaultsLeaveWholeRecords : Prop :=
  ∀ s t : State, BlockInv s → step s = .next t → s.phase ≠ .faulted → t.phase = .faulted → t.fault ≠ 2 →
    (s.phase = .opened → ∃ records, RecordsOk records ∧ Holds t.sink (containerBytes 0 records) ∧
      t.slen = (containerBytes 0 records).length) ∧
    (s.phase ≠ .opened → t.sink = s.sink ∧ t.slen = s.slen)

/-! ## Frames and whole-machine rules -/

/-- R10 (its "written by" column) and R87, R97: no row writes a register that is not its own. -/
def Obligations.RegistersHaveOnlyTheirWriters : Prop :=
  ∀ (i : Instr) (s t : State), exec i s = .next t → i ≠ .reset → (∀ src, i ≠ .convert src) →
    (∀ a b c d e, i ≠ .run a b c d e) →
    (i ≠ .bankFirst → i ≠ .bankNext → i ≠ .cprEncode → t.bank = s.bank) ∧
    (i ≠ .bankFirst → i ≠ .cprEncode → (∀ l, i ≠ .banksLoad l) → t.queue = s.queue) ∧
    ((∀ d, i ≠ .detailsSet d) → t.details = s.details) ∧
    ((∀ src, i ≠ .hdrProbe src) → i ≠ .cprEncode → t.srcValid = s.srcValid) ∧
    ((∀ src, i ≠ .hdrProbe src) → t.n = s.n ∧ t.source = s.source ∧ t.reports = s.reports) ∧
    ((∀ src, i ≠ .hdrProbe src) → (∀ h, i ≠ .srcHdr h) →
      t.hasHdr = s.hasHdr ∧ t.paylen = s.paylen ∧ t.csum = s.csum ∧ t.hf = s.hf) ∧
    (i ≠ .chunkEmit → i ≠ .cprEncode → t.rem = s.rem ∧ t.csize = s.csize) ∧
    (i ≠ .chunkEmit → i ≠ .cprEncode → (∀ e, i ≠ .cprOpen e) → (∀ l, i ≠ .preamble l) →
      (∀ b p, i ≠ .chunk b p) → t.slen = s.slen) ∧
    (i ≠ .chunkEmit → i ≠ .cprEncode → i ≠ .cprFinalize → (∀ e, i ≠ .cprOpen e) → (∀ l, i ≠ .preamble l) →
      (∀ b p, i ≠ .chunk b p) → ∀ a, Memory.read t.sink a = Memory.read s.sink a)

/-- R37, R151: once a container is open no byte in the sink is changed but by the length patch of CPR.FINALIZE, faulting
or not, and SLEN never shrinks but by RESET. -/
def Obligations.WrittenBytesStand : Prop :=
  ∀ (i : Instr) (s t : State), exec i s = .next t → s.phase ≠ .closed → i ≠ .cprFinalize → i ≠ .reset →
    s.slen ≤ t.slen ∧ ∀ a, a < s.slen → Memory.read t.sink a = Memory.read s.sink a

/-- R121: from CPR.OPEN on, and as long as CPR.FINALIZE has not run, the length field holds the placeholder. -/
def Obligations.PlaceholderUntilFinalised : Prop :=
  ∀ (i : Instr) (s t : State), BlockInv s → exec i s = .next t → i ≠ .cprFinalize →
    (s.phase = .opened ∨ i = .cprOpen false ∧ s.phase = .closed ∧ t.phase = .opened) →
    ∀ a, 4 ≤ a → a < 8 → Memory.read t.sink a = some 0

/-- No row writes the model's host side: the parameters (log 14), the command port (log 1); the answers are only used up
(log 5). -/
def Obligations.HostSideIsOnlyUsedUp : Prop :=
  ∀ (i : Instr) (s t : State), exec i s = .next t →
    t.params = s.params ∧ t.port = s.port ∧ ∃ k, t.io = s.io.drop k

/-- R16: DETAILS affects nothing but the report, whatever runs. -/
def Obligations.DetailsAffectsOnlyTheReport : Prop :=
  ∀ (i : Instr) (s : State) (d : Bool) (events : List Report),
    withoutReport (exec i { s with details := d, reports := events }) = withoutReport (exec i s)

/-- The step keeps the invariant (R15, R17, R18, R20, R64, R98, R121 and the widths of R10). -/
def Obligations.StepKeepsTheInvariant : Prop :=
  ∀ s t : State, BlockInv s → step s = .next t → BlockInv t

/-- The invariant holds after reset. -/
def Obligations.InvariantHoldsAfterReset : Prop := BlockInv State.reset

/-- R47, R179: in a state that meets the invariant, and while every primitive returns, a step always ends in a next state: no
source is read at an offset at or past its end. -/
def Obligations.StepNeverStops : Prop :=
  ∀ s : State, BlockInv s → s.ioReturns → ∃ t, step s = .next t

/-! ## Steps and encodings -/

/-- A step runs the decoded instruction; with nothing issued the block waits (R166; log 1). -/
def Obligations.StepRunsTheDecodedOperation : Prop :=
  ∀ (s : State) (c : Command) (rest : List Command) (i : Instr), decode c = .ok i →
    step { s with port := c :: rest } = exec i { s with port := rest }

/-- R166: with nothing issued the block waits (log 1). -/
def Obligations.StepWaitsForAnOperation : Prop := ∀ s : State, s.port = [] → step s = .next s

/-- R125, R126, R73: the commands an instruction is issued as, run one after the other, do what the instruction does. -/
def Obligations.CommandsOfAMacroDoTheMacro : Prop :=
  ∀ (i : Instr) (s : State) (rest : List Command), WellFormed i = true → encode i ≠ [] →
    Sys2Proof.core.run (encode i).length { s with port := encode i ++ rest } = exec i { s with port := rest }

/-- R70, R69: the seven code bytes. -/
def Obligations.CodeBytesDecode : Prop :=
  decode { code := 0x00#8 } = .ok .reset ∧ decode { code := 0x01#8, bit := true } = .ok (.detailsSet true) ∧
    decode { code := 0x02#8, banks := [5#32, 0xFFFFFFFF#32] } = .ok (.banksLoad [5, -1]) ∧
    decode { code := 0x10#8, source := [1#8, 2#8] } = .ok (.hdrProbe [1, 2]) ∧
    decode { code := 0x20#8, bit := true } = .ok (.cprOpen true) ∧ decode { code := 0x21#8 } = .ok .cprEncode ∧
    decode { code := 0x22#8 } = .ok .cprFinalize

/-- Decoding the command of a well-formed operation gives it back with its operand (R69, R70). -/
def Obligations.DecodeOfEncodedOperation : Prop :=
  ∀ (i : Instr) (c : Command), WellFormed i = true → encodeOp i = some c →
    commandInstr c = i ∧ ((∀ code, i ≠ .illegal code) → decode c = .ok i)

/-- Decoding the bytes of a well-formed record gives it back, whatever follows it (R55, R58, R59, R66). -/
def Obligations.DecodeOfEncodedRecord : Prop :=
  (∀ (h : SrcHdr) (rest : List Byte), h.lengthsOk = true →
    decodeSrcHdr (h.bytes ++ rest) =
      if checksum h.bytes = h.cksum then .ok (h, rest) else .error .checksumMismatch) ∧
  (∀ (len : BitVec 32) (rest : List Byte), decodePreamble (preambleBytes len ++ rest) = .ok (len, rest)) ∧
  (∀ (bank : Int) (payload rest : List Byte), chunkOk bank payload = true →
    decodeChunk (chunkBytes bank payload ++ rest) = .ok ((bank, payload), rest))

/-- R63: scanning a finalised container front to back gives its records. -/
def Obligations.ScanOfAContainer : Prop :=
  ∀ records : List (Int × List Byte), RecordsOk records → 4 + (recordsBytes records).length ≤ 2 ^ 32 - 1 →
    scanContainer (finalContainer records) = .ok records
end

