-- ==== Sys2Proof/Laws/Bytes.lean ====
section
/-! SUPPORT. Little-endian numbers (00_scope.md R8, 20_memory.md R39) as arithmetic on bytes, and the slices of a record. -/

namespace Sys2Proof

theorem toNat_append8 {w : Nat} (hi : BitVec w) (lo : Byte) : (hi ++ lo).toNat = hi.toNat * 256 + lo.toNat := by
  rw [BitVec.toNat_append, Nat.shiftLeft_eq, ← Nat.shiftLeft_eq, ← Nat.shiftLeft_add_eq_or_of_lt lo.isLt,
    Nat.shiftLeft_eq]

/-- `le16(b, o) = b[o] + 256*b[o+1]` (R8). -/
theorem le16_toNat (b : List Byte) (o : Nat) :
    (le16 b o).toNat = (byteAt b o).toNat + 256 * (byteAt b (o + 1)).toNat := by
  have h := toNat_append8 (byteAt b (o + 1)) (byteAt b o)
  unfold le16; omega

/-- `le24(b, o) = b[o] + 256*b[o+1] + 65536*b[o+2]` (R8). -/
theorem le24_toNat (b : List Byte) (o : Nat) :
    (le24 b o).toNat =
      (byteAt b o).toNat + 256 * (byteAt b (o + 1)).toNat + 65536 * (byteAt b (o + 2)).toNat := by
  have h1 := toNat_append8 (byteAt b (o + 1)) (byteAt b o)
  have h2 : (le24 b o).toNat = (byteAt b (o + 2)).toNat * 65536 + (byteAt b (o + 1) ++ byteAt b o).toNat := by
    unfold le24
    rw [BitVec.toNat_append, ← Nat.shiftLeft_add_eq_or_of_lt (BitVec.isLt _), Nat.shiftLeft_eq]
  omega

/-- `le32(b, o)` (R8). -/
theorem le32_toNat (b : List Byte) (o : Nat) :
    (le32 b o).toNat =
      (byteAt b o).toNat + 256 * (byteAt b (o + 1)).toNat + 65536 * (byteAt b (o + 2)).toNat +
        16777216 * (byteAt b (o + 3)).toNat := by
  have h1 := toNat_append8 (byteAt b (o + 1)) (byteAt b o)
  have h2 : (byteAt b (o + 2) ++ (byteAt b (o + 1) ++ byteAt b o)).toNat =
      (byteAt b (o + 2)).toNat * 65536 + (byteAt b (o + 1) ++ byteAt b o).toNat := by
    rw [BitVec.toNat_append, ← Nat.shiftLeft_add_eq_or_of_lt (BitVec.isLt _), Nat.shiftLeft_eq]
  have h3 : (le32 b o).toNat =
      (byteAt b (o + 3)).toNat * 16777216 + (byteAt b (o + 2) ++ (byteAt b (o + 1) ++ byteAt b o)).toNat := by
    unfold le32
    rw [BitVec.toNat_append, ← Nat.shiftLeft_add_eq_or_of_lt (BitVec.isLt _), Nat.shiftLeft_eq]
  omega

theorem extract_ofNat (v k : Nat) (hk : k ≤ 24) :
    (BitVec.ofNat 32 v).extractLsb' k 8 = BitVec.ofNat 8 (v / 2 ^ k) := by
  apply BitVec.eq_of_toNat_eq
  have hp : 2 ^ 32 = 2 ^ (32 - k) * 2 ^ k := by rw [← Nat.pow_add]; congr 1; omega
  have hd : 2 ^ 8 ∣ 2 ^ (32 - k) := Nat.pow_dvd_pow 2 (by omega)
  simp only [BitVec.extractLsb'_toNat, BitVec.toNat_ofNat, Nat.shiftRight_eq_div_pow]
  rw [hp, Nat.mul_comm, Nat.mod_mul_right_div_self, Nat.mod_mod_of_dvd _ hd]

/-- `LE32(v)` (R8). -/
theorem le32Bytes_ofNat (v : Nat) :
    le32Bytes (BitVec.ofNat 32 v) =
      [BitVec.ofNat 8 v, BitVec.ofNat 8 (v / 256), BitVec.ofNat 8 (v / 65536), BitVec.ofNat 8 (v / 16777216)] := by
  simp [le32Bytes, extract_ofNat]

theorem byteAt_append_left {a b : List Byte} {i : Nat} (h : i < a.length) : byteAt (a ++ b) i = byteAt a i := by
  simp [byteAt, List.getElem?_append_left h]

theorem byteAt_take {a : List Byte} {i k : Nat} (h : i < k) : byteAt (a.take k) i = byteAt a i := by
  simp [byteAt, h]

theorem bytesAt_take {a : List Byte} {o n k : Nat} (h : o + n ≤ k) : bytesAt (a.take k) o n = bytesAt a o n := by
  simp only [bytesAt, List.drop_take, List.take_take]
  congr 1; omega

/-- A probe looks at the first 128 bytes only (R78). -/
theorem checksum_take {a : List Byte} : checksum (a.take 128) = checksum a := by
  simp [checksum, checksumOver, List.take_take]

theorem le16_take {a : List Byte} {o k : Nat} (h : o + 1 < k) : le16 (a.take k) o = le16 a o := by
  simp only [le16, byteAt_take h, byteAt_take (show o < k by omega)]

theorem le24_take {a : List Byte} {o k : Nat} (h : o + 2 < k) : le24 (a.take k) o = le24 a o := by
  simp only [le24, byteAt_take h, byteAt_take (show o < k by omega), byteAt_take (show o + 1 < k by omega)]

theorem headerPresent_take {a : List Byte} : headerPresent (a.take 128) = headerPresent a := by
  simp [headerPresent, checksum_take, storedChecksum, le16_take]

theorem hdrFields_take {a : List Byte} : hdrFields (a.take 128) = hdrFields a := by
  simp [hdrFields, byteAt_take, bytesAt_take, le16_take, le24_take]

/-- A sum of 66 bytes is at most 16830 (R67, R88). -/
theorem sum_bytes_le (l : List Byte) : (l.map BitVec.toNat).sum ≤ 255 * l.length := by
  induction l with
  | nil => simp
  | cons b l ih => have := b.isLt; simp only [List.map_cons, List.sum_cons, List.length_cons]; omega

theorem checksum_toNat (h : List Byte) : (checksum h).toNat = ((h.take 66).map BitVec.toNat).sum := by
  have h1 := sum_bytes_le (h.take 66)
  have h2 : (h.take 66).length ≤ 66 := by simp
  simp only [checksum, checksumOver, Config.CSUM_SPAN, Config.CSUM_MOD, BitVec.toNat_ofNat]
  omega

theorem checksum_le (h : List Byte) : (checksum h).toNat ≤ 16830 := by
  have h1 := sum_bytes_le (h.take 66)
  have h2 : (h.take 66).length ≤ 66 := by simp
  rw [checksum_toNat]; omega

/-! ## Numbers put together from their own bytes -/

theorem le16_bytes (w : BitVec 16) : w.extractLsb' 8 8 ++ w.extractLsb' 0 8 = w := by
  apply BitVec.eq_of_toNat_eq
  rw [toNat_append8]
  simp [Nat.shiftRight_eq_div_pow]; omega

theorem le24_bytes (w : BitVec 24) : w.extractLsb' 16 8 ++ (w.extractLsb' 8 8 ++ w.extractLsb' 0 8) = w := by
  apply BitVec.eq_of_toNat_eq
  rw [BitVec.toNat_append, ← Nat.shiftLeft_add_eq_or_of_lt (BitVec.isLt _), toNat_append8]
  simp [Nat.shiftRight_eq_div_pow, Nat.shiftLeft_eq]; omega

theorem le32_bytes (w : BitVec 32) :
    w.extractLsb' 24 8 ++ (w.extractLsb' 16 8 ++ (w.extractLsb' 8 8 ++ w.extractLsb' 0 8)) = w := by
  apply BitVec.eq_of_toNat_eq
  rw [BitVec.toNat_append, ← Nat.shiftLeft_add_eq_or_of_lt (BitVec.isLt _), BitVec.toNat_append,
    ← Nat.shiftLeft_add_eq_or_of_lt (BitVec.isLt _), toNat_append8]
  simp [Nat.shiftRight_eq_div_pow, Nat.shiftLeft_eq]; omega

end Sys2Proof
end

