-- ==== Sys2Proof/Laws/Memory.lean ====
section
/-! SUPPORT. The sink as memory: read after write, every other offset as before, the canonical form kept. -/

namespace Sys2Proof.Machine

@[simp] theorem Memory.read_nil (a : Nat) : Memory.read [] a = none := rfl

theorem Memory.read_write (m : Memory) (a : Nat) (b : Byte) (x : Nat) :
    Memory.read (Memory.write m a b) x = if x = a then some b else Memory.read m x := by
  induction m with
  | nil => simp [Memory.write, Memory.read]
  | cons p m ih =>
    obtain ⟨y, c⟩ := p
    simp only [Memory.write]
    split
    · simp only [Memory.read]
    · split
      · subst_vars; simp only [Memory.read]; split <;> rfl
      · simp only [Memory.read, ih]; split <;> split <;> simp_all

theorem Memory.read_writeBytes (m : Memory) (addr : Nat) (v : List Byte) :
    Stored m (Memory.writeBytes m addr v) addr v := by
  induction v generalizing m addr with
  | nil => intro a; simp [Memory.writeBytes]
  | cons b bs ih =>
    intro a
    simp only [Memory.writeBytes, ih _ _ a, Memory.read_write, List.length_cons]
    by_cases h : a = addr
    · subst h; simp
    · obtain hlt | hgt := Nat.lt_or_gt_of_ne h
      · rw [if_neg (by omega), if_neg h, if_neg (by omega)]
      · by_cases hin : a < addr + 1 + bs.length
        · rw [if_pos ⟨by omega, hin⟩, if_pos ⟨by omega, by omega⟩,
            show a - addr = (a - (addr + 1)) + 1 by omega, List.getElem?_cons_succ]
        · rw [if_neg (by omega), if_neg h, if_neg (by omega)]

theorem Memory.writeBytes_append (m : Memory) (addr : Nat) (u v : List Byte) :
    Memory.writeBytes m addr (u ++ v) = Memory.writeBytes (Memory.writeBytes m addr u) (addr + u.length) v := by
  induction u generalizing m addr with
  | nil => simp [Memory.writeBytes]
  | cons b bs ih =>
    simp only [List.cons_append, Memory.writeBytes, ih, List.length_cons]
    congr 1; omega

theorem Memory.mem_write {m : Memory} {a : Nat} {b : Byte} {p : Host.Cell} (h : p ∈ Memory.write m a b) :
    p = (a, b) ∨ p ∈ m := by
  induction m with
  | nil => simpa [Memory.write] using h
  | cons q m ih =>
    simp only [Memory.write] at h
    split at h
    · simpa using h
    · split at h
      · simp only [List.mem_cons] at h ⊢; tauto
      · simp only [List.mem_cons] at h ⊢
        obtain h | h := h
        · exact .inr (.inl h)
        · obtain h | h := ih h
          · exact .inl h
          · exact .inr (.inr h)

theorem Memory.wf_nil : Memory.wf [] := List.Pairwise.nil

theorem Memory.wf_write {m : Memory} (h : Memory.wf m) (a : Nat) (b : Byte) : Memory.wf (Memory.write m a b) := by
  induction m with
  | nil => simp [Memory.write, Memory.wf]
  | cons q m ih =>
    have hq : ∀ p ∈ m, q.1 < p.1 := (List.pairwise_cons.mp h).1
    have hm : Memory.wf m := (List.pairwise_cons.mp h).2
    simp only [Memory.write]
    split
    · rename_i hlt
      refine List.pairwise_cons.mpr ⟨?_, h⟩
      intro p hp
      obtain rfl | hp := List.mem_cons.mp hp
      · exact hlt
      · exact Nat.lt_trans hlt (hq p hp)
    · split
      · rename_i heq
        exact List.pairwise_cons.mpr ⟨fun p hp => heq ▸ hq p hp, hm⟩
      · refine List.pairwise_cons.mpr ⟨?_, ih hm⟩
        intro p hp
        obtain rfl | hp := Memory.mem_write hp
        · simp only; omega
        · exact hq p hp

theorem Memory.wf_writeBytes {m : Memory} (h : Memory.wf m) (a : Nat) (v : List Byte) :
    Memory.wf (Memory.writeBytes m a v) := by
  induction v generalizing m a with
  | nil => exact h
  | cons b bs ih => exact ih (Memory.wf_write h a b) (a + 1)

theorem Memory.wf_scribble {m : Memory} (h : Memory.wf m) (a draw k : Nat) :
    Memory.wf (Memory.scribble m a draw k) := by
  induction k generalizing m a draw with
  | zero => exact h
  | succ k ih =>
    simp only [Memory.scribble]
    split
    · exact ih h _ _
    · exact ih (Memory.wf_write h _ _) _ _

/-- A failed write leaves every byte outside the failed call as it was (R143). -/
theorem Memory.read_scribble_outside (m : Memory) (addr draw k a : Nat) (h : a < addr ∨ addr + k ≤ a) :
    Memory.read (Memory.scribble m addr draw k) a = Memory.read m a := by
  induction k generalizing m addr draw with
  | zero => rfl
  | succ k ih =>
    simp only [Memory.scribble]
    split
    · exact ih _ _ _ (by omega)
    · rw [ih _ _ _ (by omega), Memory.read_write, if_neg (by omega)]

theorem Holds.nil : Holds [] [] := fun _ => rfl

/-- Bytes stored right after a byte string extend it. -/
theorem Holds.append {m : Memory} {K v : List Byte} (h : Holds m K) :
    Holds (m.writeBytes K.length v) (K ++ v) := by
  intro a
  rw [Memory.read_writeBytes m K.length v a]
  by_cases hk : a < K.length
  · rw [if_neg (by omega), h a, List.getElem?_append_left hk]
  · rw [List.getElem?_append_right (by omega)]
    split
    · rfl
    · rw [h a, List.getElem?_eq_none (by omega), List.getElem?_eq_none (by omega)]

/-- Bytes stored inside a byte string replace as many of its own. -/
theorem Holds.patch {m : Memory} {p u q v : List Byte} (h : Holds m (p ++ u ++ q)) (hv : v.length = u.length) :
    Holds (m.writeBytes p.length v) (p ++ v ++ q) := by
  intro a
  rw [Memory.read_writeBytes m p.length v a, h a]
  simp only [List.getElem?_append, List.length_append, hv]
  by_cases h1 : a < p.length
  · rw [if_neg (by omega)]; simp [h1, show a < p.length + u.length by omega]
  · by_cases h2 : a < p.length + u.length
    · rw [if_pos ⟨by omega, by omega⟩]; simp [h1, h2]
    · rw [if_neg (by omega)]; simp [h2]

/-- The same, from what a store says of the memory it left. -/
theorem Holds.stored {m m' : Memory} {K v : List Byte} (h : Holds m K) (hs : Stored m m' K.length v) :
    Holds m' (K ++ v) := by
  intro a
  rw [hs a]
  by_cases hk : a < K.length
  · rw [if_neg (by omega), h a, List.getElem?_append_left hk]
  · rw [List.getElem?_append_right (by omega)]
    split
    · rfl
    · rw [h a, List.getElem?_eq_none (by omega), List.getElem?_eq_none (by omega)]

/-- A byte stored reads back, and a store leaves every other byte alone. -/
theorem Stored.writeBytes (m : Memory) (addr : Nat) (v : List Byte) : Stored m (m.writeBytes addr v) addr v :=
  fun a => Memory.read_writeBytes m addr v a

end Sys2Proof.Machine
end

