-- ==== Sys2Proof/Laws/State.lean ====
section
/-! SUPPORT. What each named update of the state does to each field: one theorem an update, one equation a field, all
true by rfl and in the simp set, so that no later proof unfolds an update. -/

namespace Sys2Proof.Machine

@[simp] theorem State.ioNext_fields (s : State) :
    s.ioNext.bank = s.bank ∧ s.ioNext.queue = s.queue ∧ s.ioNext.details = s.details ∧ s.ioNext.phase = s.phase ∧
    s.ioNext.fault = s.fault ∧ s.ioNext.finfo = s.finfo ∧ s.ioNext.slen = s.slen ∧ s.ioNext.srcValid = s.srcValid ∧
    s.ioNext.n = s.n ∧ s.ioNext.hasHdr = s.hasHdr ∧ s.ioNext.paylen = s.paylen ∧ s.ioNext.pos = s.pos ∧
    s.ioNext.csum = s.csum ∧ s.ioNext.rem = s.rem ∧ s.ioNext.csize = s.csize ∧ s.ioNext.hf = s.hf ∧
    s.ioNext.source = s.source ∧ s.ioNext.sink = s.sink ∧ s.ioNext.pastSinks = s.pastSinks ∧
    s.ioNext.reports = s.reports ∧ s.ioNext.port = s.port ∧ s.ioNext.io = s.io.tail ∧
    s.ioNext.freeDraws = s.freeDraws ∧ s.ioNext.params = s.params :=
  ⟨rfl, rfl, rfl, rfl, rfl, rfl, rfl, rfl, rfl, rfl, rfl, rfl, rfl, rfl, rfl, rfl, rfl, rfl, rfl, rfl, rfl, rfl, rfl, rfl⟩

@[simp] theorem State.recordFault_fields (s : State) (c : Cause) (info : BitVec 32) :
    (s.recordFault c info).bank = s.bank ∧ (s.recordFault c info).queue = s.queue ∧
    (s.recordFault c info).details = s.details ∧ (s.recordFault c info).phase = .faulted ∧
    (s.recordFault c info).fault = c.code ∧ (s.recordFault c info).finfo = info ∧
    (s.recordFault c info).slen = s.slen ∧ (s.recordFault c info).srcValid = s.srcValid ∧
    (s.recordFault c info).n = s.n ∧ (s.recordFault c info).hasHdr = s.hasHdr ∧
    (s.recordFault c info).paylen = s.paylen ∧ (s.recordFault c info).pos = s.pos ∧
    (s.recordFault c info).csum = s.csum ∧ (s.recordFault c info).rem = s.rem ∧
    (s.recordFault c info).csize = s.csize ∧ (s.recordFault c info).hf = s.hf ∧
    (s.recordFault c info).source = s.source ∧ (s.recordFault c info).sink = s.sink ∧
    (s.recordFault c info).pastSinks = s.pastSinks ∧ (s.recordFault c info).reports = s.reports ∧
    (s.recordFault c info).port = s.port ∧ (s.recordFault c info).io = s.io ∧
    (s.recordFault c info).freeDraws = s.freeDraws ∧ (s.recordFault c info).params = s.params :=
  ⟨rfl, rfl, rfl, rfl, rfl, rfl, rfl, rfl, rfl, rfl, rfl, rfl, rfl, rfl, rfl, rfl, rfl, rfl, rfl, rfl, rfl, rfl, rfl, rfl⟩

@[simp] theorem State.store_fields (s : State) (addr : Nat) (v : List Byte) :
    (s.store addr v).bank = s.bank ∧ (s.store addr v).queue = s.queue ∧ (s.store addr v).details = s.details ∧
    (s.store addr v).phase = s.phase ∧ (s.store addr v).fault = s.fault ∧ (s.store addr v).finfo = s.finfo ∧
    (s.store addr v).slen = s.slen ∧ (s.store addr v).srcValid = s.srcValid ∧ (s.store addr v).n = s.n ∧
    (s.store addr v).hasHdr = s.hasHdr ∧ (s.store addr v).paylen = s.paylen ∧ (s.store addr v).pos = s.pos ∧
    (s.store addr v).csum = s.csum ∧ (s.store addr v).rem = s.rem ∧ (s.store addr v).csize = s.csize ∧
    (s.store addr v).hf = s.hf ∧ (s.store addr v).source = s.source ∧
    (s.store addr v).sink = s.sink.writeBytes addr v ∧ (s.store addr v).pastSinks = s.pastSinks ∧
    (s.store addr v).reports = s.reports ∧ (s.store addr v).port = s.port ∧ (s.store addr v).io = s.io ∧
    (s.store addr v).freeDraws = s.freeDraws ∧ (s.store addr v).params = s.params :=
  ⟨rfl, rfl, rfl, rfl, rfl, rfl, rfl, rfl, rfl, rfl, rfl, rfl, rfl, rfl, rfl, rfl, rfl, rfl, rfl, rfl, rfl, rfl, rfl, rfl⟩

@[simp] theorem State.scribbled_fields (s : State) (addr count : Nat) :
    (s.scribbled addr count).bank = s.bank ∧ (s.scribbled addr count).queue = s.queue ∧
    (s.scribbled addr count).details = s.details ∧ (s.scribbled addr count).phase = s.phase ∧
    (s.scribbled addr count).fault = s.fault ∧ (s.scribbled addr count).finfo = s.finfo ∧
    (s.scribbled addr count).slen = s.slen ∧ (s.scribbled addr count).srcValid = s.srcValid ∧
    (s.scribbled addr count).n = s.n ∧ (s.scribbled addr count).hasHdr = s.hasHdr ∧
    (s.scribbled addr count).paylen = s.paylen ∧ (s.scribbled addr count).pos = s.pos ∧
    (s.scribbled addr count).csum = s.csum ∧ (s.scribbled addr count).rem = s.rem ∧
    (s.scribbled addr count).csize = s.csize ∧ (s.scribbled addr count).hf = s.hf ∧
    (s.scribbled addr count).source = s.source ∧
    (s.scribbled addr count).sink = s.sink.scribble addr s.freeDraws count ∧
    (s.scribbled addr count).pastSinks = s.pastSinks ∧ (s.scribbled addr count).reports = s.reports ∧
    (s.scribbled addr count).port = s.port ∧ (s.scribbled addr count).io = s.io ∧
    (s.scribbled addr count).freeDraws = s.freeDraws + count ∧ (s.scribbled addr count).params = s.params :=
  ⟨rfl, rfl, rfl, rfl, rfl, rfl, rfl, rfl, rfl, rfl, rfl, rfl, rfl, rfl, rfl, rfl, rfl, rfl, rfl, rfl, rfl, rfl, rfl, rfl⟩

@[simp] theorem State.grow_fields (s : State) (k : Nat) :
    (s.grow k).bank = s.bank ∧ (s.grow k).queue = s.queue ∧ (s.grow k).details = s.details ∧
    (s.grow k).phase = s.phase ∧ (s.grow k).fault = s.fault ∧ (s.grow k).finfo = s.finfo ∧
    (s.grow k).slen = s.slen + k ∧ (s.grow k).srcValid = s.srcValid ∧ (s.grow k).n = s.n ∧
    (s.grow k).hasHdr = s.hasHdr ∧ (s.grow k).paylen = s.paylen ∧ (s.grow k).pos = s.pos ∧ (s.grow k).csum = s.csum ∧
    (s.grow k).rem = s.rem ∧ (s.grow k).csize = s.csize ∧ (s.grow k).hf = s.hf ∧ (s.grow k).source = s.source ∧
    (s.grow k).sink = s.sink ∧ (s.grow k).pastSinks = s.pastSinks ∧ (s.grow k).reports = s.reports ∧
    (s.grow k).port = s.port ∧ (s.grow k).io = s.io ∧ (s.grow k).freeDraws = s.freeDraws ∧
    (s.grow k).params = s.params :=
  ⟨rfl, rfl, rfl, rfl, rfl, rfl, rfl, rfl, rfl, rfl, rfl, rfl, rfl, rfl, rfl, rfl, rfl, rfl, rfl, rfl, rfl, rfl, rfl, rfl⟩

@[simp] theorem State.noHeader_fields (s : State) :
    s.noHeader.bank = s.bank ∧ s.noHeader.queue = s.queue ∧ s.noHeader.details = s.details ∧
    s.noHeader.phase = s.phase ∧ s.noHeader.fault = s.fault ∧ s.noHeader.finfo = s.finfo ∧ s.noHeader.slen = s.slen ∧
    s.noHeader.srcValid = s.srcValid ∧ s.noHeader.n = s.n ∧ s.noHeader.hasHdr = false ∧ s.noHeader.paylen = s.n ∧
    s.noHeader.pos = 0 ∧ s.noHeader.csum = s.csum ∧ s.noHeader.rem = s.rem ∧ s.noHeader.csize = s.csize ∧
    s.noHeader.hf = none ∧ s.noHeader.source = s.source ∧ s.noHeader.sink = s.sink ∧
    s.noHeader.pastSinks = s.pastSinks ∧ s.noHeader.reports = s.reports ∧ s.noHeader.port = s.port ∧
    s.noHeader.io = s.io ∧ s.noHeader.freeDraws = s.freeDraws ∧ s.noHeader.params = s.params :=
  ⟨rfl, rfl, rfl, rfl, rfl, rfl, rfl, rfl, rfl, rfl, rfl, rfl, rfl, rfl, rfl, rfl, rfl, rfl, rfl, rfl, rfl, rfl, rfl, rfl⟩

@[simp] theorem State.foundHeader_fields (s : State) (h : List Byte) :
    (s.foundHeader h).bank = s.bank ∧ (s.foundHeader h).queue = s.queue ∧ (s.foundHeader h).details = s.details ∧
    (s.foundHeader h).phase = s.phase ∧ (s.foundHeader h).fault = s.fault ∧ (s.foundHeader h).finfo = s.finfo ∧
    (s.foundHeader h).slen = s.slen ∧ (s.foundHeader h).srcValid = s.srcValid ∧ (s.foundHeader h).n = s.n ∧
    (s.foundHeader h).hasHdr = true ∧ (s.foundHeader h).paylen = (le16 h Config.LLEN_OFF).toNat ∧
    (s.foundHeader h).pos = Config.HDR_LEN ∧ (s.foundHeader h).csum = s.csum ∧ (s.foundHeader h).rem = s.rem ∧
    (s.foundHeader h).csize = s.csize ∧ (s.foundHeader h).hf = some (hdrFields h) ∧
    (s.foundHeader h).source = s.source ∧ (s.foundHeader h).sink = s.sink ∧
    (s.foundHeader h).pastSinks = s.pastSinks ∧ (s.foundHeader h).reports = s.reports ∧
    (s.foundHeader h).port = s.port ∧ (s.foundHeader h).io = s.io ∧ (s.foundHeader h).freeDraws = s.freeDraws ∧
    (s.foundHeader h).params = s.params :=
  ⟨rfl, rfl, rfl, rfl, rfl, rfl, rfl, rfl, rfl, rfl, rfl, rfl, rfl, rfl, rfl, rfl, rfl, rfl, rfl, rfl, rfl, rfl, rfl, rfl⟩

@[simp] theorem State.consume_fields (s : State) :
    s.consume.bank = s.bank ∧ s.consume.queue = s.queue ∧ s.consume.details = s.details ∧ s.consume.phase = s.phase ∧
    s.consume.fault = s.fault ∧ s.consume.finfo = s.finfo ∧ s.consume.slen = s.slen ∧
    s.consume.srcValid = s.srcValid ∧ s.consume.n = s.n ∧ s.consume.hasHdr = s.hasHdr ∧ s.consume.paylen = s.paylen ∧
    s.consume.pos = s.pos + s.csize ∧ s.consume.csum = s.csum ∧ s.consume.rem = s.rem - s.csize ∧
    s.consume.csize = s.csize ∧ s.consume.hf = s.hf ∧ s.consume.source = s.source ∧ s.consume.sink = s.sink ∧
    s.consume.pastSinks = s.pastSinks ∧ s.consume.reports = s.reports ∧ s.consume.port = s.port ∧
    s.consume.io = s.io ∧ s.consume.freeDraws = s.freeDraws ∧ s.consume.params = s.params :=
  ⟨rfl, rfl, rfl, rfl, rfl, rfl, rfl, rfl, rfl, rfl, rfl, rfl, rfl, rfl, rfl, rfl, rfl, rfl, rfl, rfl, rfl, rfl, rfl, rfl⟩

@[simp] theorem State.bankNext_fields (s : State) :
    s.bankNext.bank = s.bank + 1 ∧ s.bankNext.queue = s.queue ∧ s.bankNext.details = s.details ∧
    s.bankNext.phase = s.phase ∧ s.bankNext.fault = s.fault ∧ s.bankNext.finfo = s.finfo ∧ s.bankNext.slen = s.slen ∧
    s.bankNext.srcValid = s.srcValid ∧ s.bankNext.n = s.n ∧ s.bankNext.hasHdr = s.hasHdr ∧
    s.bankNext.paylen = s.paylen ∧ s.bankNext.pos = s.pos ∧ s.bankNext.csum = s.csum ∧ s.bankNext.rem = s.rem ∧
    s.bankNext.csize = s.csize ∧ s.bankNext.hf = s.hf ∧ s.bankNext.source = s.source ∧ s.bankNext.sink = s.sink ∧
    s.bankNext.pastSinks = s.pastSinks ∧ s.bankNext.reports = s.reports ∧ s.bankNext.port = s.port ∧
    s.bankNext.io = s.io ∧ s.bankNext.freeDraws = s.freeDraws ∧ s.bankNext.params = s.params :=
  ⟨rfl, rfl, rfl, rfl, rfl, rfl, rfl, rfl, rfl, rfl, rfl, rfl, rfl, rfl, rfl, rfl, rfl, rfl, rfl, rfl, rfl, rfl, rfl, rfl⟩

@[simp] theorem State.newSink_fields (s : State) :
    s.newSink.bank = s.bank ∧ s.newSink.queue = s.queue ∧ s.newSink.details = s.details ∧ s.newSink.phase = s.phase ∧
    s.newSink.fault = s.fault ∧ s.newSink.finfo = s.finfo ∧ s.newSink.slen = s.slen ∧
    s.newSink.srcValid = s.srcValid ∧ s.newSink.n = s.n ∧ s.newSink.hasHdr = s.hasHdr ∧ s.newSink.paylen = s.paylen ∧
    s.newSink.pos = s.pos ∧ s.newSink.csum = s.csum ∧ s.newSink.rem = s.rem ∧ s.newSink.csize = s.csize ∧
    s.newSink.hf = s.hf ∧ s.newSink.source = s.source ∧ s.newSink.sink = [] ∧
    s.newSink.pastSinks = (if s.sink.isEmpty then s.pastSinks else s.pastSinks ++ [s.sink]) ∧
    s.newSink.reports = s.reports ∧ s.newSink.port = s.port ∧ s.newSink.io = s.io ∧
    s.newSink.freeDraws = s.freeDraws ∧ s.newSink.params = s.params :=
  ⟨rfl, rfl, rfl, rfl, rfl, rfl, rfl, rfl, rfl, rfl, rfl, rfl, rfl, rfl, rfl, rfl, rfl, rfl, rfl, rfl, rfl, rfl, rfl, rfl⟩

/-- The numbering decision touches BANK and QUEUE only (R92). -/
theorem State.bankFirst_eq (s : State) :
    s.bankFirst = { s with bank := (s.queue.headD (s.bank + 1)), queue := s.queue.tail } := by
  unfold State.bankFirst
  rcases s with ⟨bank, _ | ⟨b, q⟩⟩ <;> rfl

end Sys2Proof.Machine
end

