-- ==== Sys2Proof/Laws/Ops.lean ====
section
/-! SUPPORT. What the shared operations can answer: for each, the case where it succeeds and the cases it can end in. -/

namespace Sys2Proof.Machine

@[simp] theorem andThen_next (s : State) (k : State → Result) :
    andThen (.next s) k = if s.phase = .faulted then .next s else k s := rfl

@[simp] theorem andThen_fault (f : Fault) (k : State → Result) : andThen (.fault f) k = .fault f := rfl

theorem andThen_live {s : State} (h : s.phase ≠ .faulted) (k : State → Result) : andThen (.next s) k = k s := by
  simp [h]

theorem unlessFaulted_live {s : State} (h : s.phase ≠ .faulted) (k : State → Result) : unlessFaulted s k = k s :=
  andThen_live h k

theorem unlessFaulted_faulted {s : State} (h : s.phase = .faulted) (k : State → Result) :
    unlessFaulted s k = .next s := by
  simp [unlessFaulted, h]

/-- A sequence ends in a next state in one of two ways: its first part recorded a fault and that is the end, or the rest
ran from where the first part ended. -/
theorem andThen_eq_next {r : Result} {k : State → Result} {t : State} (h : andThen r k = .next t) :
    ∃ s, r = .next s ∧ ((s.phase = .faulted ∧ t = s) ∨ (s.phase ≠ .faulted ∧ k s = .next t)) := by
  cases r with
  | next s =>
    refine ⟨s, rfl, ?_⟩
    by_cases hs : s.phase = .faulted
    · exact .inl ⟨hs, by simpa [hs] using h.symm⟩
    · exact .inr ⟨hs, by simpa [hs] using h⟩
  | fault f => cases h
  | refused e => cases h

theorem andThen_assoc (r : Result) (f g : State → Result) :
    andThen (andThen r f) g = andThen r fun s => andThen (f s) g := by
  cases r with
  | next s => by_cases h : s.phase = .faulted <;> simp [h]
  | fault f => rfl
  | refused e => rfl

/-! ## The oracle -/

theorem State.ioOk_zero (s : State) : s.ioOk 0 := by simp [State.ioOk]

theorem State.ioOk_succ {s : State} {k : Nat} (h : s.ioOk (k + 1)) : s.ioAnswer = .ok ∧ s.ioNext.ioOk k := by
  rcases hs : s.io with _ | ⟨a, l⟩
  · simp [State.ioOk, State.ioAnswer, hs]
  · simp only [State.ioOk, hs, List.take_succ_cons, List.mem_cons, forall_eq_or_imp] at h
    simp only [State.ioOk, State.ioAnswer, State.ioNext_fields, hs]
    exact h

theorem State.ioOk_mono {s : State} {j k : Nat} (h : s.ioOk k) (hj : j ≤ k) : s.ioOk j := fun a ha =>
  h a ((List.take_sublist_take_left hj).subset ha)

theorem State.ioOk_drop {s t : State} {j k : Nat} (h : s.ioOk (j + k)) (ht : t.io = s.io.drop j) : t.ioOk k := by
  intro a ha
  rw [ht, List.take_drop] at ha
  exact h a (List.mem_of_mem_drop ha)

theorem State.ioQuiet_ok {s : State} (h : s.ioQuiet) (k : Nat) : s.ioOk k := fun a ha => h a (List.mem_of_mem_take ha)

/-! ## The primitives -/

theorem ioCall_ok {s : State} (h : s.ioAnswer = .ok) (code : Byte) : ioCall code s = .next s.ioNext := by
  simp [ioCall, h]

/-- A call with no effect of its own returns, or records IoFailure (R143). -/
theorem ioCall_eq_next {code : Byte} {s t : State} (h : ioCall code s = .next t) :
    t = s.ioNext ∨ t = s.ioNext.recordFault .ioFailure (codeInfo code) := by
  unfold ioCall at h
  split at h <;> simp_all [raise]

theorem srcLen_ok {s : State} {src : Source} (hs : s.source = some src) (h : s.ioAnswer = .ok) (code : Byte) :
    srcLen code s = .next s.ioNext := by
  simp [srcLen, hs, ioCall_ok h]

theorem memRead_ok {s : State} {src : Source} {addr n : Nat} (hs : s.source = some src) (hn : addr + n ≤ src.length)
    (h : s.ioAnswer = .ok) (code : Byte) : memRead addr n code s = .next s.ioNext := by
  simp [memRead, hs, hn, ioCall_ok h]

/-- A source read ends in a next state only inside a bound source, and then it returned or recorded IoFailure. -/
theorem memRead_eq_next {addr n : Nat} {code : Byte} {s t : State} (h : memRead addr n code s = .next t) :
    t = s.ioNext ∨ t = s.ioNext.recordFault .ioFailure (codeInfo code) := by
  unfold memRead at h
  split at h
  · cases h
  · split at h
    · exact ioCall_eq_next h
    · cases h

theorem srcLen_eq_next {code : Byte} {s t : State} (h : srcLen code s = .next t) :
    t = s.ioNext ∨ t = s.ioNext.recordFault .ioFailure (codeInfo code) := by
  unfold srcLen at h
  split at h
  · cases h
  · exact ioCall_eq_next h

theorem memWrite_ok {s : State} (h : s.ioAnswer = .ok) (addr : Nat) (v : List Byte) (code : Byte) :
    memWrite addr v code s = .next (s.ioNext.store addr v) := by
  simp [memWrite, h]

/-- A write stores its bytes, or records IoFailure and leaves the sink outside them as it was (R37, R143). -/
theorem memWrite_eq_next {addr : Nat} {v : List Byte} {code : Byte} {s t : State}
    (h : memWrite addr v code s = .next t) :
    t = s.ioNext.store addr v ∨
      t = (s.ioNext.scribbled addr v.length).recordFault .ioFailure (codeInfo code) := by
  unfold memWrite at h
  split at h <;> simp_all [raise]

theorem append_ok {s : State} (hp : s.phase ≠ .faulted) (h : s.ioAnswer = .ok) (v : List Byte) (code : Byte) :
    append v code s = .next ((s.ioNext.store s.slen v).grow v.length) := by
  simp [append, memWrite_ok h, hp]

/-- An append grows the sink by its bytes, or records IoFailure with SLEN as before the call (R38, R143). -/
theorem append_eq_next {v : List Byte} {code : Byte} {s t : State} (hp : s.phase ≠ .faulted)
    (h : append v code s = .next t) :
    t = (s.ioNext.store s.slen v).grow v.length ∨
      t = (s.ioNext.scribbled s.slen v.length).recordFault .ioFailure (codeInfo code) := by
  obtain ⟨u, hu, hk⟩ := andThen_eq_next h
  obtain rfl | rfl := memWrite_eq_next hu
  · obtain ⟨hf, -⟩ | ⟨-, hk⟩ := hk
    · exact absurd hf (by simpa using hp)
    · exact .inl (by simpa using hk.symm)
  · obtain ⟨-, rfl⟩ | ⟨hf, -⟩ := hk
    · exact .inr rfl
    · exact absurd (by simp) hf

/-! ## Relations every part of an operation keeps -/

/-- Whenever `r` ends in a next state, that state is related to `s`. A frame of an operation is such a relation. -/
def Keeps (R : State → State → Prop) (s : State) (r : Result) : Prop := ∀ t, r = .next t → R s t

variable {R : State → State → Prop} {s t u : State} {r : Result} {k : State → Result}

theorem Keeps.next (h : R s t) : Keeps R s (.next t) := by rintro u ⟨⟩; exact h

theorem Keeps.fault (s : State) (f : Fault) : Keeps R s (.fault f) := by rintro u ⟨⟩

/-- A state related to where an operation starts may stand for it. -/
theorem Keeps.from (trans : ∀ a b c, R a b → R b c → R a c) (h : R s u) (hr : Keeps R u r) : Keeps R s r :=
  fun t ht => trans _ _ _ h (hr t ht)

/-- A sequence keeps a transitive relation its two parts keep. -/
theorem Keeps.andThen (trans : ∀ a b c, R a b → R b c → R a c) (h : Keeps R s r)
    (hk : ∀ u, R s u → u.phase ≠ .faulted → Keeps R u (k u)) : Keeps R s (andThen r k) := by
  intro t ht
  obtain ⟨u, rfl, ⟨-, rfl⟩ | ⟨hp, hu⟩⟩ := andThen_eq_next ht
  · exact h _ rfl
  · exact trans _ _ _ (h _ rfl) (hk u (h _ rfl) hp t hu)

theorem Keeps.unlessFaulted (refl : ∀ s, R s s) (h : s.phase ≠ .faulted → Keeps R s (k s)) :
    Keeps R s (unlessFaulted s k) := by
  by_cases hp : s.phase = .faulted
  · rw [unlessFaulted_faulted hp]; exact Keeps.next (refl s)
  · rw [unlessFaulted_live hp]; exact h hp

/-- A fault taken keeps a relation that the writes of R150 keep. -/
theorem Keeps.raise (h : ∀ c info, R s (s.recordFault c info)) (c : Cause) (info : BitVec 32) :
    Keeps R s (raise c info s) := Keeps.next (h c info)

end Sys2Proof.Machine
end

