-- ==== Sys2Proof/Laws/Encoder.lean ====
section
/-! SUPPORT. The chunk encoder and the container framer: what their shared operations answer when every primitive call
succeeds, and the arithmetic of the chunk count. -/

namespace Sys2Proof.Machine

@[simp] theorem length_tagCb : tagCb.length = 2 := rfl

@[simp] theorem length_tagRiff : tagRiff.length = 4 := rfl

@[simp] theorem length_tagAms : tagAms.length = 4 := rfl

theorem tail_eq_drop {α : Type} (l : List α) : l.tail = l.drop 1 := List.drop_one.symm

@[simp] theorem length_bankDigits (bank : Int) : (bankDigits bank).length = 2 := rfl

@[simp] theorem length_le32Bytes (w : BitVec 32) : (le32Bytes w).length = 4 := rfl

@[simp] theorem length_chunkLength (payload : List Byte) : (chunkLength payload).length = 4 := rfl

@[simp] theorem length_chunkBytes (bank : Int) (payload : List Byte) :
    (chunkBytes bank payload).length = 8 + payload.length := by
  simp [chunkBytes, tagCb]; omega

@[simp] theorem length_preambleBytes (len : BitVec 32) : (preambleBytes len).length = 12 := rfl

/-- The state after a successful append of `v` (R38). -/
def State.appended (s : State) (v : List Byte) : State :=
  { s with io := s.io.tail, sink := s.sink.writeBytes s.slen v, slen := s.slen + v.length }

theorem append_ok_last {s : State} (hp : s.phase ≠ .faulted) {k : Nat} (h : s.ioOk (k + 1)) (v : List Byte)
    (code : Byte) : append v code s = .next (s.appended v) :=
  append_ok hp (State.ioOk_succ h).1 v code

theorem append_ok_then {s : State} (hp : s.phase ≠ .faulted) {k : Nat} (h : s.ioOk (k + 1)) (v : List Byte)
    (code : Byte) (f : State → Result) : andThen (append v code s) f = f (s.appended v) := by
  rw [append_ok_last hp h, andThen_live (by exact hp)]

theorem State.ioOk_appended {s : State} {k : Nat} (h : s.ioOk (k + 1)) (v : List Byte) : (s.appended v).ioOk k :=
  (State.ioOk_succ h).2

/-- Four appends in a row, all of them successful, append the concatenation. -/
theorem appendRecord_ok {s : State} (hp : s.phase ≠ .faulted) (h : s.ioOk 4) (bank : Int) (payload : List Byte) :
    appendRecord bank payload s = .next { s with
      io := s.io.drop 4, sink := s.sink.writeBytes s.slen (chunkBytes bank payload),
      slen := s.slen + (8 + payload.length) } := by
  have h2 := State.ioOk_appended h tagCb
  have h3 := State.ioOk_appended h2 (bankDigits bank)
  have h4 := State.ioOk_appended h3 (chunkLength payload)
  rw [appendRecord, append_ok_then hp h, append_ok_then (by exact hp) h2, append_ok_then (by exact hp) h3,
    append_ok_last (by exact hp) h4]
  simp only [State.appended, chunkBytes, Memory.writeBytes_append, List.length_append, length_tagCb,
    length_bankDigits, length_chunkLength, Nat.add_assoc, Nat.reduceAdd, tail_eq_drop, List.drop_drop]

/-- Three appends in a row, all of them successful, append the preamble. -/
theorem appendPreamble_ok {s : State} (hp : s.phase ≠ .faulted) (h : s.ioOk 3) (len : BitVec 32) :
    appendPreamble len s = .next { s with
      io := s.io.drop 3, sink := s.sink.writeBytes s.slen (preambleBytes len), slen := s.slen + 12 } := by
  have h2 := State.ioOk_appended h tagRiff
  have h3 := State.ioOk_appended h2 (le32Bytes len)
  rw [appendPreamble, append_ok_then hp h, append_ok_then (by exact hp) h2, append_ok_last (by exact hp) h3]
  simp only [State.appended, preambleBytes, Memory.writeBytes_append, List.length_append, length_tagRiff,
    length_tagAms, length_le32Bytes, Nat.add_assoc, Nat.reduceAdd, tail_eq_drop, List.drop_drop]

/-- CHUNK.EMIT when its tests pass and its five primitive calls succeed (R105 to R110). -/
theorem emitChunk_ok {s : State} {src : Source} (hp : s.phase ≠ .faulted) (h : s.ioOk 5) (hs : s.source = some src)
    (hb : bankInRange s.bank = true) (hf : containerFits s.slen (min 16384 s.rem) = true)
    (hr : s.pos + min 16384 s.rem ≤ src.length) :
    emitChunk s = .next { s with
      csize := min 16384 s.rem, io := s.io.drop 5,
      sink := s.sink.writeBytes s.slen (chunkBytes s.bank (bytesAt src s.pos (min 16384 s.rem))),
      slen := s.slen + (8 + min 16384 s.rem), pos := s.pos + min 16384 s.rem, rem := s.rem - min 16384 s.rem } := by
  obtain ⟨h1, h4⟩ := State.ioOk_succ h
  have hlen : (bytesAt src s.pos (min 16384 s.rem)).length = min 16384 s.rem := by
    simp [bytesAt]; omega
  simp only [emitChunk, checkRecord, Config.CHUNK_MAX, hb, if_true, hf]
  rw [memRead_ok (s := { s with csize := min 16384 s.rem }) hs hr h1, andThen_live (by simpa using hp)]
  simp only [State.ioNext, State.sourceBytes, hs, Option.getD_some]
  rw [appendRecord_ok (by simpa using hp) (by simpa [State.ioNext] using h4), andThen_live (by simpa using hp)]
  simp [State.consume, hlen]

/-- What a run of appends that ended in IoFailure leaves (R143): at most `b` bytes of earlier calls stand after the sink's
end, what the sink held before is as before, and of the registers only FAULT, FINFO, PHASE and SLEN changed. -/
def IoFailed (code : Byte) (b : Nat) (s t : State) : Prop :=
  ∃ m j k c, j ≤ b ∧ (∀ a, a < s.slen → Memory.read m a = Memory.read s.sink a) ∧ (Memory.wf s.sink → Memory.wf m) ∧
    t = { s with sink := m, slen := s.slen + j, freeDraws := k, io := s.io.drop c, fault := 2,
                 finfo := codeInfo code, phase := .faulted }

theorem IoFailed.mono {code : Byte} {b c : Nat} {s t : State} (h : IoFailed code b s t) (hb : b ≤ c) :
    IoFailed code c s t := by
  obtain ⟨m, j, k, d, hj, h⟩ := h
  exact ⟨m, j, k, d, by omega, h⟩

theorem IoFailed.faulted {code : Byte} {b : Nat} {s t : State} (h : IoFailed code b s t) : t.phase = .faulted := by
  obtain ⟨m, j, k, d, hj, -, -, rfl⟩ := h; rfl

theorem IoFailed.after {code : Byte} {b : Nat} {s t : State} {v : List Byte} (h : IoFailed code b (s.appended v) t) :
    IoFailed code (v.length + b) s t := by
  obtain ⟨m, j, k, c, hj, hr, hw, rfl⟩ := h
  refine ⟨m, v.length + j, k, c + 1, by omega, fun a ha => ?_, fun hs => hw (Memory.wf_writeBytes hs _ _), ?_⟩
  · rw [hr a (by simp only [State.appended]; omega)]
    simp only [State.appended]
    rw [Memory.read_writeBytes, if_neg (by omega)]
  · simp only [State.appended, tail_eq_drop, List.drop_drop, Nat.add_assoc, Nat.add_comm 1]

theorem append_cases {v : List Byte} {code : Byte} {s t : State} (hp : s.phase ≠ .faulted)
    (h : append v code s = .next t) : t = s.appended v ∨ IoFailed code 0 s t := by
  obtain rfl | rfl := append_eq_next hp h
  · exact .inl rfl
  · refine .inr ⟨s.sink.scribble s.slen s.freeDraws v.length, 0, s.freeDraws + v.length, 1, Nat.le_refl _,
      fun a ha => Memory.read_scribble_outside _ _ _ _ _ (.inl ha), fun hs => Memory.wf_scribble hs _ _ _, ?_⟩
    simp [State.recordFault, State.scribbled, State.ioNext, Cause.code]

/-- An append and the appends after it: all of them ran, or one ended in IoFailure. -/
theorem append_then {v : List Byte} {code : Byte} {s t : State} {k : State → Result} (hp : s.phase ≠ .faulted)
    (h : andThen (append v code s) k = .next t) :
    k (s.appended v) = .next t ∨ IoFailed code 0 s t := by
  obtain ⟨u, hu, hk⟩ := andThen_eq_next h
  obtain rfl | hf := append_cases hp hu
  · obtain ⟨hf, -⟩ | ⟨-, hk⟩ := hk
    · exact absurd hf hp
    · exact .inl hk
  · obtain ⟨-, rfl⟩ | ⟨hn, -⟩ := hk
    · exact .inr hf
    · exact absurd hf.faulted hn

/-- The record appended, or IoFailure in one of its four calls. -/
theorem appendRecord_cases {bank : Int} {payload : List Byte} {s t : State} (hp : s.phase ≠ .faulted)
    (h : appendRecord bank payload s = .next t) :
    t = { s with
      io := s.io.drop 4, sink := s.sink.writeBytes s.slen (chunkBytes bank payload),
      slen := s.slen + (8 + payload.length) } ∨ IoFailed codeCprEncode 8 s t := by
  obtain h | hf := append_then hp h
  · obtain h | hf := append_then (by exact hp) h
    · obtain h | hf := append_then (by exact hp) h
      · obtain rfl | hf := append_cases (by exact hp) h
        · left
          simp only [State.appended, chunkBytes, Memory.writeBytes_append, List.length_append, length_tagCb,
            length_bankDigits, length_chunkLength, Nat.add_assoc, Nat.reduceAdd, tail_eq_drop, List.drop_drop]
        · exact .inr (hf.after.after.after.mono (by simp))
      · exact .inr (hf.after.after.mono (by simp))
    · exact .inr (hf.after.mono (by simp))
  · exact .inr (hf.mono (by simp))

/-- The preamble appended, or IoFailure in one of its three calls. -/
theorem appendPreamble_cases {len : BitVec 32} {s t : State} (hp : s.phase ≠ .faulted)
    (h : appendPreamble len s = .next t) :
    t = { s with
      io := s.io.drop 3, sink := s.sink.writeBytes s.slen (preambleBytes len), slen := s.slen + 12 } ∨
      IoFailed codeCprOpen 8 s t := by
  obtain h | hf := append_then hp h
  · obtain h | hf := append_then (by exact hp) h
    · obtain rfl | hf := append_cases (by exact hp) h
      · left
        simp only [State.appended, preambleBytes, Memory.writeBytes_append, List.length_append, length_tagRiff,
          length_tagAms, length_le32Bytes, Nat.add_assoc, Nat.reduceAdd, tail_eq_drop, List.drop_drop]
      · exact .inr (hf.after.after.mono (by simp))
    · exact .inr (hf.after.mono (by simp))
  · exact .inr (hf.mono (by simp))

/-- CHUNK.EMIT ends in a next state in four ways: BankRange, ContainerOverflow, IoFailure, one record appended (R105 to
R110, R154). -/
theorem emitChunk_cases {s t : State} (hp : s.phase ≠ .faulted) (h : emitChunk s = .next t) :
    (bankInRange s.bank = false ∧
      t = State.recordFault { s with csize := min 16384 s.rem } .bankRange (bankInfo s.bank)) ∨
    (bankInRange s.bank = true ∧ containerFits s.slen (min 16384 s.rem) = false ∧
      t = State.recordFault { s with csize := min 16384 s.rem } .containerOverflow
        (BitVec.ofNat 32 (min 16384 s.rem))) ∨
    (bankInRange s.bank = true ∧ containerFits s.slen (min 16384 s.rem) = true ∧
      IoFailed codeCprEncode 8 { s with csize := min 16384 s.rem } t) ∨
    (∃ src, s.source = some src ∧ bankInRange s.bank = true ∧ containerFits s.slen (min 16384 s.rem) = true ∧
      s.pos + min 16384 s.rem ≤ src.length ∧
      t = { s with
        csize := min 16384 s.rem, io := s.io.drop 5,
        sink := s.sink.writeBytes s.slen (chunkBytes s.bank (bytesAt src s.pos (min 16384 s.rem))),
        slen := s.slen + (8 + min 16384 s.rem), pos := s.pos + min 16384 s.rem, rem := s.rem - min 16384 s.rem }) := by
  simp only [emitChunk, checkRecord, Config.CHUNK_MAX] at h
  cases hb : bankInRange s.bank with
  | false =>
    simp only [hb] at h
    exact .inl ⟨rfl, by simpa [raise] using h.symm⟩
  | true =>
    cases hf : containerFits s.slen (min 16384 s.rem) with
    | false =>
      simp only [hb, hf] at h
      exact .inr (.inl ⟨rfl, rfl, by simpa [raise] using h.symm⟩)
    | true =>
      simp only [hb, hf, if_true] at h
      refine .inr (.inr ?_)
      obtain ⟨u, hu, hk⟩ := andThen_eq_next h
      obtain ⟨src, hs, hr⟩ : ∃ src, s.source = some src ∧ s.pos + min 16384 s.rem ≤ src.length := by
        unfold memRead at hu
        split at hu
        · cases hu
        · rename_i src hs
          split at hu
          · exact ⟨src, hs, by assumption⟩
          · cases hu
      have hlen : (bytesAt src s.pos (min 16384 s.rem)).length = min 16384 s.rem := by
        simp [bytesAt]; omega
      obtain rfl | rfl := memRead_eq_next hu
      · obtain ⟨hph, -⟩ | ⟨-, hk⟩ := hk
        · exact absurd hph hp
        · simp only [State.ioNext, State.sourceBytes, hs, Option.getD_some] at hk
          obtain ⟨v, hv, hk⟩ := andThen_eq_next hk
          obtain rfl | hio := appendRecord_cases (by exact hp) hv
          · obtain ⟨hph, -⟩ | ⟨-, hk⟩ := hk
            · exact absurd hph hp
            · refine .inr ⟨src, hs, rfl, rfl, hr, ?_⟩
              simpa [State.consume, hlen, hs] using hk.symm
          · obtain ⟨-, rfl⟩ | ⟨hn, -⟩ := hk
            · obtain ⟨m, j, k, c, hj, hrd, hw, rfl⟩ := hio
              exact .inl ⟨rfl, rfl, m, j, k, c + 1, hj, hrd, hw, by simp [hs]⟩
            · exact absurd hio.faulted hn
      · obtain ⟨-, rfl⟩ | ⟨hn, -⟩ := hk
        · exact .inl ⟨rfl, rfl, s.sink, 0, s.freeDraws, 1, by omega, fun _ _ => rfl, id, by
            simp [State.recordFault, State.ioNext, Cause.code]⟩
        · exact absurd (by simp) hn

/-- The loop of CPR.ENCODE runs ceil(PAYLEN / 16384) times (R104, R113). -/
theorem chunkCount_step {len : Nat} (h : 0 < len) : chunkCount len = chunkCount (len - min 16384 len) + 1 := by
  simp only [chunkCount, Config.CHUNK_MAX]; omega

theorem chunkCount_zero : chunkCount 0 = 0 := rfl

theorem chunkCount_pos {len : Nat} (h : 0 < len) : 0 < chunkCount len := by
  simp only [chunkCount, Config.CHUNK_MAX]; omega

/-- FINFO of BankRange where BANK has a 32-bit word (R144). -/
theorem bankInfo_word {bank : Int} (lo : -2 ^ 31 ≤ bank) (hi : bank < 2 ^ 31) :
    bankInfo bank = BitVec.ofInt 32 bank := if_pos (by simpa [bankWordOk] using ⟨lo, hi⟩)

/-! ## The records of a payload -/

theorem sourceRecords_nil (first : Int) : sourceRecords first [] = [] := rfl

/-- The records of a payload that is not empty: its first chunk, and the records of the rest (R106, R110, R111). -/
theorem sourceRecords_cons (first : Int) (payload : List Byte) (h : 0 < payload.length) :
    sourceRecords first payload =
      (first, payload.take 16384) :: sourceRecords (first + 1) (payload.drop 16384) := by
  have hc : (payload.length + 16383) / 16384 = (payload.length - 16384 + 16383) / 16384 + 1 := by omega
  simp only [sourceRecords, chunkCount, Config.CHUNK_MAX, Nat.reduceSub, List.length_drop, hc, List.range_succ_eq_map, List.map_cons, List.map_map]
  simp only [Nat.mul_zero, List.drop_zero, Int.natCast_zero, Int.add_zero, List.cons.injEq, true_and]
  apply List.map_congr_left
  intro k _
  simp only [Function.comp, List.drop_drop, Nat.succ_eq_add_one, Int.natCast_add, Nat.mul_add]
  refine Prod.ext ?_ ?_
  · simp; omega
  · simp; rw [Nat.add_comm]

end Sys2Proof.Machine
end

