-- ==== Sys2Proof/Laws/Validator.lean ====
section
/-! SUPPORT. The header validator: what binding a source and probing it answer. -/

namespace Sys2Proof.Machine

/-- Binding a source of legal length, the length query succeeding (R76). -/
theorem bindSource_ok {src : Source} {s : State} (hp : s.phase ≠ .faulted) (h : s.ioAnswer = .ok)
    (hl : src.length < 2 ^ 32) :
    bindSource src s = .next { s with source := some src, n := src.length, io := s.io.tail } := by
  have h' : State.ioAnswer { s with source := some src } = .ok := h
  rw [bindSource, srcLen_ok rfl h', andThen_live (by simpa using hp)]
  have hl' : sourceTooLong src.length = false := by simp [sourceTooLong]; omega
  simp [State.ioNext, State.sourceLen, hl']

/-- Binding a source of 2^32 bytes or more, the length query succeeding (R146). -/
theorem bindSource_tooLong {src : Source} {s : State} (hp : s.phase ≠ .faulted) (h : s.ioAnswer = .ok)
    (hl : 2 ^ 32 ≤ src.length) :
    bindSource src s = .next (State.recordFault { s with source := none, io := s.io.tail } .sourceTooLong 0) := by
  have h' : State.ioAnswer { s with source := some src } = .ok := h
  rw [bindSource, srcLen_ok rfl h', andThen_live (by simpa using hp)]
  have hl' : sourceTooLong src.length = true := by simp [sourceTooLong]; omega
  simp [State.ioNext, State.sourceLen, hl', raise]

/-- Binding ends in a next state in three ways: bound, IoFailure with the source bound, SourceTooLong with none bound. -/
theorem bindSource_eq_next {src : Source} {s t : State} (hp : s.phase ≠ .faulted) (h : bindSource src s = .next t) :
    (src.length < 2 ^ 32 ∧ t = { s with source := some src, n := src.length, io := s.io.tail }) ∨
      t = State.recordFault { s with source := some src, io := s.io.tail } .ioFailure (codeInfo codeHdrProbe) ∨
      (2 ^ 32 ≤ src.length ∧ t = State.recordFault { s with source := none, io := s.io.tail } .sourceTooLong 0) := by
  obtain ⟨u, hu, hk⟩ := andThen_eq_next h
  obtain rfl | rfl := srcLen_eq_next hu
  · obtain ⟨hf, -⟩ | ⟨-, hk⟩ := hk
    · exact absurd hf (by simpa using hp)
    · simp only [State.ioNext, State.sourceLen, Option.getD_some] at hk
      cases hl : sourceTooLong src.length with
      | true =>
        simp only [hl] at hk
        simp only [sourceTooLong, Config.SRC_LIMIT, Config.SRCW, decide_eq_true_eq] at hl
        exact .inr (.inr ⟨hl, by simpa [raise] using hk.symm⟩)
      | false =>
        simp only [hl] at hk
        simp only [sourceTooLong, Config.SRC_LIMIT, Config.SRCW, decide_eq_false_iff_not] at hl
        exact .inl ⟨by omega, by simpa using hk.symm⟩
  · obtain ⟨-, rfl⟩ | ⟨hf, -⟩ := hk
    · exact .inr (.inl rfl)
    · exact absurd (by simp) hf

@[simp] theorem probeHeader_phase (h : List Byte) (s : State) : (probeHeader h s).phase = s.phase := by
  unfold probeHeader; simp only; split <;> simp

theorem probeHeader_match {h : List Byte} (hm : headerPresent h = true) (s : State) :
    probeHeader h s = State.foundHeader { s with csum := checksum h } h := by
  simp [probeHeader, hm]

theorem probeHeader_mismatch {h : List Byte} (hm : headerPresent h = false) (s : State) :
    probeHeader h s = State.noHeader { s with csum := checksum h } := by
  simp [probeHeader, hm]

/-- The decision on the first 128 bytes of a source is the decision on the source (R78). -/
theorem probeHeader_take (src : Source) (s : State) : probeHeader (src.take 128) s = probeHeader src s := by
  simp only [probeHeader, checksum_take, headerPresent_take, State.foundHeader, hdrFields_take, Config.LLEN_OFF,
    le16_take (show 24 + 1 < 128 by omega)]

/-- A short probe (R77). -/
theorem probeSource_short {s : State} (h : s.n < 128) : probeSource s = .next s.noHeader := by
  have hsh : shortSource s.n = true := by simp [shortSource, h]
  simp [probeSource, hsh]

/-- A full probe, the read succeeding (R78 to R82). -/
theorem probeSource_full {src : Source} {s : State} (hp : s.phase ≠ .faulted) (hs : s.source = some src)
    (hn : s.n = src.length) (hl : 128 ≤ src.length) (h : s.ioAnswer = .ok) :
    probeSource s = .next (probeHeader src s.ioNext) := by
  have hsh : shortSource s.n = false := by simp [shortSource, hn, hl]
  rw [probeSource, hsh, if_neg (by simp), memRead_ok hs (by simpa using hl) h, andThen_live (by simpa using hp)]
  simp only [State.sourceBytes, State.ioNext_fields, hs, Option.getD_some, bytesAt, List.drop_zero, Config.HDR_LEN,
    probeHeader_take]

/-- Probing ends in a next state in three ways: short, decided, IoFailure (R77, R78). -/
theorem probeSource_eq_next {src : Source} {s t : State} (hp : s.phase ≠ .faulted) (hs : s.source = some src)
    (hn : s.n = src.length) (h : probeSource s = .next t) :
    (src.length < 128 ∧ t = s.noHeader) ∨ (128 ≤ src.length ∧ t = probeHeader src s.ioNext) ∨
      (128 ≤ src.length ∧ t = s.ioNext.recordFault .ioFailure (codeInfo codeHdrProbe)) := by
  by_cases hl : 128 ≤ src.length
  · have hsh : shortSource s.n = false := by simp [shortSource, hn, hl]
    rw [probeSource, hsh, if_neg (by simp)] at h
    obtain ⟨u, hu, hk⟩ := andThen_eq_next h
    obtain rfl | rfl := memRead_eq_next hu
    · obtain ⟨hf, -⟩ | ⟨-, hk⟩ := hk
      · exact absurd hf (by simpa using hp)
      · refine .inr (.inl ⟨hl, ?_⟩)
        simp only [State.sourceBytes, State.ioNext_fields, hs, Option.getD_some, bytesAt, List.drop_zero,
          Config.HDR_LEN, probeHeader_take] at hk
        simpa using hk.symm
    · obtain ⟨-, rfl⟩ | ⟨hf, -⟩ := hk
      · exact .inr (.inr ⟨hl, rfl⟩)
      · exact absurd (by simp) hf
  · have hsh : shortSource s.n = true := by simp [shortSource, hn]; omega
    rw [probeSource, hsh, if_pos rfl] at h
    exact .inl ⟨by omega, by simpa using h.symm⟩

/-- HDR.PROBE of a short source, its one primitive call succeeding. -/
theorem execHdrProbe_short {src : Source} {s : State} (hp : s.phase ≠ .faulted) (h : s.ioOk 1) (hl : src.length < 128) :
    execHdrProbe src s = .next (finishProbe
      (State.noHeader { s with source := some src, n := src.length, io := s.io.tail })) := by
  rw [execHdrProbe, unlessFaulted_live hp, bindSource_ok hp (State.ioOk_succ h).1 (by omega),
    andThen_live (by exact hp), probeSource_short (by exact hl), andThen_live (by exact hp)]

theorem tail_tail_eq_drop {α : Type} (l : List α) : l.tail.tail = l.drop 2 := by
  rw [← List.drop_one, ← List.drop_one, List.drop_drop]

/-- HDR.PROBE of a source of 128 bytes or more, its two primitive calls succeeding. -/
theorem execHdrProbe_full {src : Source} {s : State} (hp : s.phase ≠ .faulted) (h : s.ioOk 2)
    (hl : 128 ≤ src.length) (hl' : src.length < 2 ^ 32) :
    execHdrProbe src s = .next (finishProbe (probeHeader src
      { s with source := some src, n := src.length, io := s.io.drop 2 })) := by
  obtain ⟨h1, h2⟩ := State.ioOk_succ h
  have h3 : State.ioAnswer { s with source := some src, n := src.length, io := s.io.tail } = .ok :=
    (State.ioOk_succ h2).1
  rw [execHdrProbe, unlessFaulted_live hp, bindSource_ok hp h1 hl', andThen_live (by exact hp),
    probeSource_full (by exact hp) rfl rfl hl h3, andThen_live (by simpa using hp)]
  simp only [State.ioNext, tail_tail_eq_drop]

/-- HDR.PROBE ends in a next state in five ways: three faults, a short probe, a decided one (R75, R154). -/
theorem execHdrProbe_eq_next {src : Source} {s t : State} (hp : s.phase ≠ .faulted)
    (h : execHdrProbe src s = .next t) :
    t = State.recordFault { s with source := some src, io := s.io.tail } .ioFailure (codeInfo codeHdrProbe) ∨
      (2 ^ 32 ≤ src.length ∧ t = State.recordFault { s with source := none, io := s.io.tail } .sourceTooLong 0) ∨
      (128 ≤ src.length ∧ src.length < 2 ^ 32 ∧
        t = State.recordFault { s with source := some src, n := src.length, io := s.io.drop 2 } .ioFailure
          (codeInfo codeHdrProbe)) ∨
      (src.length < 128 ∧
        t = finishProbe (State.noHeader { s with source := some src, n := src.length, io := s.io.tail })) ∨
      (128 ≤ src.length ∧ src.length < 2 ^ 32 ∧
        t = finishProbe (probeHeader src { s with source := some src, n := src.length, io := s.io.drop 2 })) := by
  rw [execHdrProbe, unlessFaulted_live hp] at h
  rw [← tail_tail_eq_drop]
  obtain ⟨u, hu, hk⟩ := andThen_eq_next h
  obtain ⟨hl, rfl⟩ | rfl | ⟨hl, rfl⟩ := bindSource_eq_next hp hu
  · obtain ⟨hf, -⟩ | ⟨-, hk⟩ := hk
    · exact absurd hf hp
    · obtain ⟨v, hv, hk⟩ := andThen_eq_next hk
      obtain ⟨h1, rfl⟩ | ⟨h1, rfl⟩ | ⟨h1, rfl⟩ := probeSource_eq_next (src := src) (by exact hp) rfl rfl hv
      · obtain ⟨hf, -⟩ | ⟨-, hk⟩ := hk
        · exact absurd hf (by simpa using hp)
        · exact .inr (.inr (.inr (.inl ⟨h1, by simpa using hk.symm⟩)))
      · obtain ⟨hf, -⟩ | ⟨-, hk⟩ := hk
        · exact absurd hf (by simpa using hp)
        · exact .inr (.inr (.inr (.inr ⟨h1, hl, by simpa [State.ioNext] using hk.symm⟩)))
      · obtain ⟨hf, rfl⟩ | ⟨hf, -⟩ := hk
        · exact .inr (.inr (.inl ⟨h1, hl, rfl⟩))
        · exact absurd (by simp) hf
  · obtain ⟨hf, rfl⟩ | ⟨hf, -⟩ := hk
    · exact .inl rfl
    · exact absurd (by simp) hf
  · obtain ⟨hf, rfl⟩ | ⟨hf, -⟩ := hk
    · exact .inr (.inl ⟨hl, rfl⟩)
    · exact absurd (by simp) hf

end Sys2Proof.Machine
end

