-- ==== Sys2Proof/Tests/Slice0.lean ====
section
/-! SUPPORT. The model's own tests. Expected values are those of spec/95_test_vectors.md (its vector's name is in each
docstring) or worked out by hand from the rule named; after them one witness for the hypotheses of each statement. -/

namespace Sys2Proof.Tests

open Sys2Proof Sys2Proof.Machine

/-! ## Helpers -/

/-- The next state of an answer. -/
def answer : Result → Option State
  | .next s => some s
  | .fault _ => none
  | .refused _ => none

/-- FAULT, FINFO and PHASE of an answer. -/
def faultOf (r : Result) : Option (BitVec 8 × BitVec 32 × Phase) := (answer r).map fun s => (s.fault, s.finfo, s.phase)

/-- The sink's bytes at offsets 0 to SLEN - 1. -/
def contents (s : State) : List (Option Byte) := (List.range s.slen).map (Memory.read s.sink)

/-- The sink and PHASE of an answer. -/
def written (r : Result) : Option (List (Option Byte) × Phase) := (answer r).map fun s => (contents s, s.phase)

/-- HAS_HDR, PAYLEN, POS and CSUM of an answer. -/
def probed (r : Result) : Option (Bool × Nat × Nat × BitVec 16) :=
  (answer r).map fun s => (s.hasHdr, s.paylen, s.pos, s.csum)

/-- Why a decoder rejected. -/
def rejection {α : Type} : Except DecodeError α → Option DecodeError
  | .ok _ => none
  | .error e => some e

/-- The header HDR-A of 95_test_vectors.md, byte for byte. -/
def hdrA : List Byte :=
  [0x00] ++ [0x47, 0x41, 0x4D, 0x45, 0x20, 0x20, 0x20, 0x20] ++ [0x42, 0x49, 0x4E] ++ [0, 0, 0, 0] ++ [0] ++ [0] ++ [2] ++
    [0, 0] ++ [0x00, 0x40] ++ [0] ++ [0x04, 0x00] ++ [0x00, 0x40] ++ List.replicate 36 0 ++ [0x04, 0x00, 0x00] ++
    [0xFD, 0x02] ++ List.replicate 59 0

/-- The source of vector H1. -/
def srcG : List Byte := hdrA ++ [0xDE, 0xAD, 0xBE, 0xEF, 0x01, 0x02]

/-- HDR-A as a record. -/
def recA : SrcHdr where
  owner := 0
  name := [0x47, 0x41, 0x4D, 0x45, 0x20, 0x20, 0x20, 0x20]
  ext := [0x42, 0x49, 0x4E]
  reservedA := [0, 0, 0, 0]
  block := 0
  last := 0
  ftype := 2
  dataloc := 0
  loadaddr := 0x4000
  first := 0
  loglen := 4
  entry := 0x4000
  reservedB := List.replicate 36 0
  reallen := 4
  cksum := 0x02FD
  reservedC := List.replicate 59 0

/-- The event of vector H1. -/
def eventA : Report :=
  .header { owner := 0, name := [0x47, 0x41, 0x4D, 0x45, 0x20, 0x20, 0x20, 0x20], ext := [0x42, 0x49, 0x4E], block := 0,
            last := 0, ftype := 2, dataloc := 0, loadaddr := 0x4000, first := 0, loglen := 4, entry := 0x4000,
            reallen := 4, cksum := 0x02FD }

def preamble0 : List Byte := [0x52, 0x49, 0x46, 0x46, 0, 0, 0, 0, 0x41, 0x4D, 0x53, 0x21]

/-- The state after CPR.OPEN from reset (vector F1). -/
def openState : State :=
  { State.reset with phase := .opened, sink := Memory.writeBytes [] 0 (preambleBytes 0), slen := 12 }

/-- That state with a headerless source bound and probed. -/
def boundState (src : Source) : State :=
  { openState with source := some src, n := src.length, paylen := src.length, srcValid := true }

def faultedState : State := { State.reset with phase := .faulted, fault := 1 }

/-! ## Well-formedness: an ill-formed term for each check -/

theorem test_wf_bank_too_large : WellFormed (.banksLoad [5, 2147483648]) = false := by decide
theorem test_wf_bank_too_small : WellFormed (.banksLoad [-2147483649]) = false := by decide
theorem test_wf_bank_limits : WellFormed (.banksLoad [2147483647, -2147483648]) = true := by decide
theorem test_wf_run_bank : WellFormed (.run [] (some [2147483648]) false true false) = false := by decide
theorem test_wf_illegal_assigned : WellFormed (.illegal 0x21) = false := by decide
theorem test_wf_illegal_free : WellFormed (.illegal 0x7F) = true := by decide
theorem test_wf_hdr_name : WellFormed (.srcHdr { recA with name := [] }) = false := by decide
theorem test_wf_hdr_ext : WellFormed (.srcHdr { recA with ext := [1, 2, 3, 4] }) = false := by decide
theorem test_wf_hdr_reservedA : WellFormed (.srcHdr { recA with reservedA := [] }) = false := by decide
theorem test_wf_hdr_reservedB : WellFormed (.srcHdr { recA with reservedB := [] }) = false := by decide
theorem test_wf_hdr_reservedC : WellFormed (.srcHdr { recA with reservedC := [] }) = false := by decide
theorem test_wf_hdr : WellFormed (.srcHdr recA) = true := by decide
theorem test_wf_chunk_bank_high : WellFormed (.chunk 100 [1]) = false := by decide
theorem test_wf_chunk_bank_low : WellFormed (.chunk (-1) [1]) = false := by decide
theorem test_wf_chunk_empty : WellFormed (.chunk 5 []) = false := by decide
theorem test_wf_chunk_long : WellFormed (.chunk 5 (List.replicate 16385 0)) = false := by
  decide +kernel
theorem test_wf_chunk_limits : WellFormed (.chunk 99 [1]) = true := by decide

/-! ## Decoding, from the bytes of 30_encoding.md R55, R58, R59 and R70 -/

theorem test_decode_reset : decode { code := 0b00000000#8 } = .ok .reset := rfl
theorem test_decode_detailsSet : decode { code := 0b00000001#8, bit := true } = .ok (.detailsSet true) := rfl
theorem test_decode_banksLoad :
    decode { code := 0b00000010#8, banks := [9#32, 0xFFFFFFFE#32] } = .ok (.banksLoad [9, -2]) := rfl
theorem test_decode_hdrProbe : decode { code := 0b00010000#8, source := [7] } = .ok (.hdrProbe [7]) := rfl
theorem test_decode_cprOpen : decode { code := 0b00100000#8, bit := true } = .ok (.cprOpen true) := rfl
theorem test_decode_cprEncode : decode { code := 0b00100001#8 } = .ok .cprEncode := rfl
theorem test_decode_cprFinalize : decode { code := 0b00100010#8 } = .ok .cprFinalize := rfl
theorem test_decode_illegal : decode { code := 0x7F } = .error (.illegalCode 0x7F) := rfl
/-- R71's ranges at their ends. -/
theorem test_decode_illegal_ends :
    (([0x03, 0x0F, 0x11, 0x1F, 0x23, 0xFF] : List Byte).all fun c => commandInstr { code := c } == .illegal c) = true := by
  decide
theorem test_table_word : decodeTableWord 8 0x21 = some .cprEncode ∧ decodeTableWord 8 0x23 = none := by decide
theorem test_bytes_srcHdr : recA.bytes = hdrA := by decide
theorem test_decode_srcHdr : (decodeSrcHdr (hdrA ++ [9])).toOption = some (recA, [9]) := by decide +kernel
theorem test_decode_srcHdr_rejects :
    rejection (decodeSrcHdr (List.replicate 128 0xFF)) = some .checksumMismatch ∧
      rejection (decodeSrcHdr (List.replicate 127 0)) = some .shortRecord := by decide +kernel
theorem test_decode_preamble :
    decodePreamble [0x52, 0x49, 0x46, 0x46, 0xA0, 0x4E, 0x00, 0x00, 0x41, 0x4D, 0x53, 0x21, 1] = .ok (20128, [1]) := rfl
theorem test_decode_preamble_magic :
    decodePreamble [0x52, 0x49, 0x46, 0x47, 0, 0, 0, 0, 0x41, 0x4D, 0x53, 0x21] = .error .badMagic := rfl
theorem test_decode_preamble_tag :
    decodePreamble [0x52, 0x49, 0x46, 0x46, 0, 0, 0, 0, 0x41, 0x4D, 0x53, 0x20] = .error .badFormatTag := rfl
theorem test_decode_chunk :
    decodeChunk [0x63, 0x62, 0x34, 0x32, 2, 0, 0, 0, 0xAA, 0xBB, 0xCC] = .ok ((42, [0xAA, 0xBB]), [0xCC]) := rfl
theorem test_decode_chunk_tag : decodeChunk [0x63, 0x63, 0x34, 0x32, 1, 0, 0, 0, 1] = .error .badChunkTag := rfl
theorem test_decode_chunk_digits : decodeChunk [0x63, 0x62, 0x3A, 0x30, 1, 0, 0, 0, 1] = .error .badBankDigits := rfl
theorem test_decode_chunk_empty : decodeChunk [0x63, 0x62, 0x30, 0x30, 0, 0, 0, 0] = .error .badChunkLength := rfl
theorem test_decode_chunk_long : decodeChunk [0x63, 0x62, 0x30, 0x30, 1, 0x40, 0, 0] = .error .badChunkLength := rfl
theorem test_decode_chunk_cut : decodeChunk [0x63, 0x62, 0x30, 0x30, 2, 0, 0, 0, 1] = .error .truncatedPayload := rfl
/-- ENC1 to ENC6. -/
theorem test_bank_digits :
    [bankDigits 0, bankDigits 5, bankDigits 9, bankDigits 10, bankDigits 42, bankDigits 99] =
      [[0x30, 0x30], [0x30, 0x35], [0x30, 0x39], [0x31, 0x30], [0x34, 0x32], [0x39, 0x39]] := by decide
/-- ENC8 to ENC14. -/
theorem test_le32 :
    [le32Bytes 0, le32Bytes 4, le32Bytes 100, le32Bytes 3616, le32Bytes 16384, le32Bytes 20128, le32Bytes 0xFFFFFFFF] =
      [[0, 0, 0, 0], [4, 0, 0, 0], [0x64, 0, 0, 0], [0x20, 0x0E, 0, 0], [0, 0x40, 0, 0], [0xA0, 0x4E, 0, 0],
        [0xFF, 0xFF, 0xFF, 0xFF]] := by decide
/-- The operation codes of program P7, R127. -/
theorem test_encode_details_run :
    (encode (.run [[1], [2]] none true false false)).map Command.code = [0x01, 0x10, 0x10] := by decide
/-- The operation codes of program P6's expansion, R125. -/
theorem test_encode_run :
    (encode (.run [[1]] (some [5]) true true true)).map Command.code = [0x01, 0x02, 0x20, 0x10, 0x21, 0x22] := by decide
/-- P1's container read back (R63). -/
theorem test_scan :
    scanContainer [0x52, 0x49, 0x46, 0x46, 0x19, 0, 0, 0, 0x41, 0x4D, 0x53, 0x21, 0x63, 0x62, 0x30, 0x30, 3, 0, 0, 0,
      0x11, 0x22, 0x33, 0x63, 0x62, 0x30, 0x31, 2, 0, 0, 0, 0xAA, 0xBB] =
      .ok [(0, [0x11, 0x22, 0x33]), (1, [0xAA, 0xBB])] := rfl
theorem test_scan_placeholder : scanContainer preamble0 = .error .badContainerLength := rfl

/-! ## Instructions -/

/-- R123's example, and R167: the sink stays. -/
theorem test_reset :
    (answer (exec .reset { openState with phase := .faulted, fault := 3, bank := 7 })).map
        (fun s => (s.phase, s.fault, s.bank, s.slen, s.sink.length)) = some (.closed, 0, -1, 0, 12) := by decide
theorem test_detailsSet : (answer (exec (.detailsSet true) State.reset)).map (·.details) = some true := by decide
/-- R91's example. -/
theorem test_banksLoad :
    (answer (exec (.banksLoad [5, 9]) State.reset)).map (fun s => (s.queue, s.bank)) = some ([5, 9], -1) := by decide
/-- R149 with QDEPTH = 1; and X6. -/
theorem test_banksLoad_faults :
    faultOf (exec (.banksLoad [5, 9]) { State.reset with params := { qdepth := some 1, zeroSrcConsumes := false } }) =
        some (8, 2, .faulted) ∧
      faultOf (exec (.banksLoad [5]) openState) = some (7, 2, .faulted) := by decide
/-- H1, H3, H4, H5, H12, H15: the checksum matches. -/
theorem test_probe_match :
    [srcG, hdrA, srcG.set 66 1, srcG.set 100 0xFF, ((List.replicate 128 0xFF).set 67 0xBE).set 68 0x41,
        (((srcG.set 15 9).set 16 1).set 67 7).set 68 3].map (fun src => probed (exec (.hdrProbe src) State.reset)) =
      [some (true, 4, 128, 765), some (true, 4, 128, 765), some (true, 4, 128, 765), some (true, 4, 128, 765),
        some (true, 65535, 128, 16830), some (true, 4, 128, 775)] := by decide +kernel
/-- H2, H6, H8, H9, H11: it does not, or the source is short. -/
theorem test_probe_mismatch :
    [srcG.set 1 0x48, (((hdrA.set 67 0).set 68 0).set 69 0xFD).set 70 2 ++ [0, 0, 0, 0], List.replicate 127 0, [1, 2, 3],
        List.replicate 128 0xFF].map (fun src => probed (exec (.hdrProbe src) State.reset)) =
      [some (false, 134, 0, 766), some (false, 132, 0, 765), some (false, 127, 0, 0), some (false, 3, 0, 0),
        some (false, 128, 0, 16830)] := by decide +kernel
/-- F1; X1; X4. -/
theorem test_cprOpen :
    written (exec (.cprOpen false) State.reset) = some (preamble0.map some, .opened) ∧
      faultOf (exec (.cprOpen true) State.reset) = some (1, 0, .faulted) ∧
      faultOf (exec (.cprOpen false) openState) = some (7, 0x20, .faulted) := by decide +kernel
/-- A new run's sink is a new one, and the old one is kept (R167; log 9). -/
theorem test_cprOpen_keeps_old_sink :
    (answer (exec (.cprOpen false) { State.reset with sink := [(0, 9)] })).map (fun s => (s.pastSinks, s.slen)) =
      some ([[(0, 9)]], 12) := by decide +kernel
/-- F4's record, BANK and SRC_VALID after it. -/
theorem test_cprEncode :
    written (exec .cprEncode (boundState [0xAA])) =
        some ((preamble0 ++ [0x63, 0x62, 0x30, 0x30, 1, 0, 0, 0, 0xAA]).map some, .opened) ∧
      (answer (exec .cprEncode (boundState [0xAA]))).map (fun s => (s.bank, s.srcValid, s.pos, s.rem)) =
        some (0, false, 1, 0) := by decide +kernel
/-- X2, X3; X7's underrun. -/
theorem test_cprEncode_faults :
    faultOf (exec .cprEncode State.reset) = some (7, 0x21, .faulted) ∧
      faultOf (exec .cprEncode openState) = some (7, 0x21, .faulted) ∧
      faultOf (exec .cprEncode { boundState hdrA with paylen := 4, pos := 128 }) = some (4, 128, .faulted) := by
  decide +kernel
/-- F2; X5. -/
theorem test_cprFinalize :
    written (exec .cprFinalize openState) =
        some ([0x52, 0x49, 0x46, 0x46, 4, 0, 0, 0, 0x41, 0x4D, 0x53, 0x21].map some, .final) ∧
      faultOf (exec .cprFinalize State.reset) = some (7, 0x22, .faulted) := by decide +kernel
/-- X13. -/
theorem test_illegal : faultOf (exec (.illegal 0x7F) State.reset) = some (7, 0x7F, .faulted) := by decide
/-- R92's examples. -/
theorem test_bankFirst :
    (answer (exec .bankFirst { State.reset with bank := 2 })).map (·.bank) = some 3 ∧
      (answer (exec .bankFirst { State.reset with bank := 2, queue := [7, 1] })).map (fun s => (s.bank, s.queue)) =
        some (7, [1]) := by decide
/-- R93's example and corner case. -/
theorem test_bankNext :
    (answer (exec .bankNext { State.reset with bank := 5, queue := [9] })).map (fun s => (s.bank, s.queue)) =
      some (6, [9]) := by decide
/-- R105's worked example. -/
theorem test_chunkEmit :
    (answer (exec .chunkEmit { openState with
        source := some (hdrA ++ [0xDE, 0xAD, 0xBE, 0xEF, 0x01]), rem := 5, pos := 128, bank := 5 })).map
        (fun s => ((contents s).drop 12, s.pos, s.rem, s.slen)) =
      some ([0x63, 0x62, 0x30, 0x35, 5, 0, 0, 0, 0xDE, 0xAD, 0xBE, 0xEF, 0x01].map some, 133, 0, 25) := by decide +kernel
/-- R108's corner cases: bank 100, bank -1 (B13, B14). -/
theorem test_chunkEmit_range :
    faultOf (exec .chunkEmit { boundState [1] with rem := 1, bank := 100 }) = some (3, 100, .faulted) ∧
      faultOf (exec .chunkEmit { boundState [1] with rem := 1, bank := -1 }) = some (3, 0xFFFFFFFF, .faulted) := by
  decide +kernel
/-- E10. -/
theorem test_convert :
    (answer (exec (.convert srcG) openState)).map (fun s => ((contents s).drop 12, s.slen, s.pos)) =
      some ([0x63, 0x62, 0x30, 0x30, 4, 0, 0, 0, 0xDE, 0xAD, 0xBE, 0xEF].map some, 24, 132) := by decide +kernel
/-- P8 with a shorter source: 128 zero bytes are a header of length 0. -/
theorem test_convert_zeros :
    (answer (exec (.convert (List.replicate 200 0)) openState)).map (fun s => (s.slen, s.bank, s.hasHdr)) =
      some (12, -1, true) := by decide +kernel
/-- P2. -/
theorem test_run :
    (answer (exec (.run [srcG, [0x11, 0x22, 0x33]] (some [5]) true true false) State.reset)).map
        (fun s => (contents s, s.phase, s.bank, s.queue, s.reports)) =
      some ([0x52, 0x49, 0x46, 0x46, 0x1B, 0, 0, 0, 0x41, 0x4D, 0x53, 0x21, 0x63, 0x62, 0x30, 0x35, 4, 0, 0, 0, 0xDE,
        0xAD, 0xBE, 0xEF, 0x63, 0x62, 0x30, 0x36, 3, 0, 0, 0, 0x11, 0x22, 0x33].map some, .final, 6, [],
        [eventA, .noHeader]) := by decide +kernel
/-- P6 and P7. -/
theorem test_run_exists_and_details :
    faultOf (exec (.run [[0x11, 0x22, 0x33]] none true true true) State.reset) = some (1, 0, .faulted) ∧
      (answer (exec (.run [srcG, [0x11, 0x22, 0x33]] none true false false) State.reset)).map
        (fun s => (s.phase, s.bank, s.slen, s.reports, s.paylen)) =
        some (.closed, -1, 0, [eventA, .noHeader], 3) := by decide +kernel
/-- B8 and B9 under the other reading, P_ZERO_SRC_CONSUMES = true. -/
theorem test_run_zero_source_consumes :
    (answer (exec (.run [[], [1]] (some [5, 9]) false true false)
      { State.reset with params := { qdepth := none, zeroSrcConsumes := true } })).map (fun s => (s.bank, s.queue)) =
      some (9, []) := by decide +kernel
theorem test_srcHdr : probed (exec (.srcHdr recA) State.reset) = some (true, 4, 128, 765) := by decide +kernel
theorem test_preamble :
    (answer (exec (.preamble 4) State.reset)).map contents =
      some ([0x52, 0x49, 0x46, 0x46, 4, 0, 0, 0, 0x41, 0x4D, 0x53, 0x21].map some) := by decide +kernel
theorem test_chunk :
    (answer (exec (.chunk 42 [0xAA, 0xBB]) State.reset)).map contents =
      some ([0x63, 0x62, 0x34, 0x32, 2, 0, 0, 0, 0xAA, 0xBB].map some) := by decide +kernel
/-- The step takes the oldest command; a failed write stops the operation (R143: FINFO 0x20, SLEN before the call). -/
theorem test_step_io_failure :
    (answer (step { State.reset with port := [{ code := 0x20 }, { code := 0x00 }], io := [.ok, .error] })).map
      (fun s => (s.fault, s.finfo, s.slen, s.port.length)) = some (2, 0x20, 4, 1) := by rfl
/-- U18: a primitive that never returns. -/
theorem test_step_never : answer (step { State.reset with port := [{ code := 0x20 }], io := [.never] }) = none := by rfl
theorem test_withFetchWord : step (State.reset.withFetchWord 8 0x20) = exec (.cprOpen false) State.reset := rfl

/-- BANK past 32 bits (R98): BankRange all the same, FINFO free (log 28). -/
theorem test_chunkEmit_wide_bank :
    (answer (exec .chunkEmit { State.reset with phase := .opened, slen := 12, rem := 1, bank := 2 ^ 31 })).map
      (fun s => (s.fault, s.phase, s.slen)) = some (3, .faulted, 12) := by rfl

/-- What the host sees of a probe of `01 02 03` (R33, R77). -/
theorem test_observe_probe :
    (answer (exec (.hdrProbe [1, 2, 3]) State.reset)).map (fun s => s.observe.probe) = some (some (false, 3, none)) := by rfl

/-! ## Witnesses: for each statement, a state and operands that meet its hypotheses together -/

theorem test_witness_DetailsSetWritesTheFlag : State.reset.phase ≠ .faulted ∧ faultedState.phase = .faulted := by decide

theorem test_witness_IllegalCodeRejectedAndRaised :
    (0x23#8 : Byte) ∉ [0x00#8, 0x01#8, 0x02#8, 0x10#8, 0x20#8, 0x21#8, 0x22#8] ∧ State.reset.phase ≠ .faulted := by decide

theorem test_witness_IllegalRaisesPhaseError : State.reset.phase ≠ .faulted := by decide

theorem test_witness_ShortProbeTakesWholeSource :
    State.reset.phase ≠ .faulted ∧ State.reset.ioOk 1 ∧ (List.replicate 127 (0 : Byte)).length < 128 := by decide +kernel

/-- Both cases of the decision: HDR-A, and HDR-A with offset 1 changed. -/
theorem test_witness_FullProbeDecidesByChecksum :
    State.reset.phase ≠ .faulted ∧ State.reset.ioOk 2 ∧ 128 ≤ srcG.length ∧ srcG.length < 2 ^ 32 ∧
      ((List.range 66).map fun i => (srcG.getD i 0).toNat).sum % 65536 =
        (srcG.getD 67 0).toNat + 256 * (srcG.getD 68 0).toNat ∧
      ((List.range 66).map fun i => ((srcG.set 1 0x48).getD i 0).toNat).sum % 65536 ≠
        ((srcG.set 1 0x48).getD 67 0).toNat + 256 * ((srcG.set 1 0x48).getD 68 0).toNat := by decide +kernel

theorem test_witness_TooLongSourceFaults :
    State.reset.phase ≠ .faulted ∧ State.reset.ioOk 1 ∧ 2 ^ 32 ≤ (List.replicate (2 ^ 32) (0 : Byte)).length :=
  ⟨by decide, by decide, by rw [List.length_replicate]⟩

theorem test_witness_LargeStoredChecksumNeverMatches :
    16830 < ((List.replicate 128 (0xFF : Byte)).getD 67 0).toNat +
        256 * ((List.replicate 128 (0xFF : Byte)).getD 68 0).toNat ∧
      (answer (exec (.hdrProbe (List.replicate 128 0xFF)) State.reset)).map (·.phase) = some .closed := by decide +kernel

theorem test_witness_UnsummedBytesDoNotDecide :
    srcG.length = (srcG.set 66 1).length ∧ 128 ≤ srcG.length ∧ srcG ≠ srcG.set 66 1 ∧
      ((List.range 134).all fun i =>
        !(decide (i < 66) || i == 67 || i == 68) || srcG.getD i 0 == (srcG.set 66 1).getD i 0) = true ∧
      (answer (exec (.hdrProbe srcG) State.reset)).isSome = true ∧
      (answer (exec (.hdrProbe (srcG.set 66 1)) State.reset)).isSome = true := by decide +kernel

theorem test_witness_SourceHeaderRecordDecides :
    State.reset.phase ≠ .faulted ∧ recA.lengthsOk = true ∧ checksum recA.bytes = recA.cksum ∧
      checksum { recA with cksum := 0 }.bytes ≠ { recA with cksum := 0 }.cksum := by decide +kernel

theorem test_witness_BanksLoadReplacesTheQueue :
    faultedState.phase = .faulted ∧ (openState.phase ≠ .faulted ∧ openState.phase ≠ .closed) ∧
      (State.reset.phase = .closed ∧ ∀ d, State.reset.params.qdepth = some d → [(5 : Int)].length ≤ d) ∧
      ∃ s : State, s.phase = .closed ∧ s.params.qdepth = some 0 ∧ 0 < [(5 : Int)].length :=
  ⟨rfl, by decide, ⟨rfl, by simp [State.reset, Config.Params.defaults]⟩,
    { State.reset with params := { qdepth := some 0, zeroSrcConsumes := false } }, rfl, rfl, by decide⟩

theorem test_witness_BankFirstPopsOrIncrements :
    State.reset.phase ≠ .faulted ∧ State.reset.queue = [] ∧
      { State.reset with queue := [7, 1] }.phase ≠ .faulted ∧ { State.reset with queue := [7, 1] }.queue = 7 :: [1] := by
  decide

theorem test_witness_BankNextIncrements : State.reset.phase ≠ .faulted := by decide

/-- A state about to emit its last byte, with the bank number and the sink length given. -/
def emitState (bank : Int) (slen : Nat) : State := { boundState [1] with rem := 1, bank := bank, slen := slen }

/-- Banks 0 and 99, and the largest SLEN. -/
theorem test_witness_ChunkEmitAppendsOneRecord :
    (emitState 0 12).phase ≠ .faulted ∧ (emitState 0 12).source = some [1] ∧ 1 = min 16384 (emitState 0 12).rem ∧
      0 ≤ (emitState 0 12).bank ∧ (emitState 99 12).bank ≤ 99 ∧
      (emitState 99 (2 ^ 32 - 2)).slen + 8 + 1 ≤ 2 ^ 32 + 7 ∧ (emitState 0 12).pos + 1 ≤ [(1 : Byte)].length ∧
      (emitState 0 12).ioOk 5 := by decide

theorem test_witness_ChunkEmitFaultsOnBankRange :
    (emitState (-1) 12).phase ≠ .faulted ∧ (emitState (-1) 12).bank < 0 ∧ 99 < (emitState 100 12).bank ∧
      -2 ^ 31 ≤ (emitState (-1) 12).bank ∧ (emitState (2 ^ 31 - 1) 12).bank < 2 ^ 31 ∧
      99 < (emitState (2 ^ 31) 12).bank := by decide

theorem test_witness_ChunkEmitFaultsOnOverflow :
    (emitState 0 (2 ^ 32 - 1)).phase ≠ .faulted ∧ 0 ≤ (emitState 0 (2 ^ 32 - 1)).bank ∧
      (emitState 0 (2 ^ 32 - 1)).bank ≤ 99 ∧
      2 ^ 32 + 7 < (emitState 0 (2 ^ 32 - 1)).slen + 8 + min 16384 (emitState 0 (2 ^ 32 - 1)).rem := by decide

theorem test_witness_ChunkRecordIsAppended :
    State.reset.phase ≠ .faulted ∧ chunkOk 99 [1] = true ∧ State.reset.slen + 8 + [(1 : Byte)].length ≤ 2 ^ 32 + 7 ∧
      State.reset.ioOk 4 ∧ 2 ^ 32 + 7 < (emitState 0 (2 ^ 32 - 1)).slen + 8 + [(1 : Byte)].length := by decide

theorem test_witness_EncodeAppendsThePayload :
    (boundState [1]).phase = .opened ∧ (boundState [1]).srcValid = true ∧ (boundState [1]).source = some [1] ∧
      (boundState [1]).n = [(1 : Byte)].length ∧ (boundState [1]).pos + (boundState [1]).paylen ≤ (boundState [1]).n ∧
      0 < (boundState [1]).paylen ∧ 1 = ((boundState [1]).paylen + 16383) / 16384 ∧ 0 ≤ firstBank (boundState [1]) ∧
      firstBank (boundState [1]) + (1 : Nat) ≤ 100 ∧ (boundState [1]).slen + 8 * 1 + (boundState [1]).paylen ≤ 2 ^ 32 + 7 ∧
      (boundState [1]).ioOk (5 * 1) := by decide

theorem test_witness_EncodeOfEmptyPayloadWritesNothing :
    (boundState []).phase = .opened ∧ (boundState []).srcValid = true ∧ (boundState []).paylen = 0 ∧
      (boundState []).pos ≤ (boundState []).n ∧ (boundState []).params.zeroSrcConsumes = false ∧
      { boundState [] with params := { qdepth := none, zeroSrcConsumes := true } }.params.zeroSrcConsumes = true := by
  decide

theorem test_witness_EncodeFaultsOnUnderrun :
    { boundState [1] with paylen := 2 }.phase = .opened ∧ { boundState [1] with paylen := 2 }.srcValid = true ∧
      { boundState [1] with paylen := 2 }.n <
        { boundState [1] with paylen := 2 }.pos + { boundState [1] with paylen := 2 }.paylen := by decide

theorem test_witness_EncodeIsItsMicroOperations :
    (boundState [1]).phase = .opened ∧ (boundState [1]).srcValid = true ∧
      (boundState [1]).pos + (boundState [1]).paylen ≤ (boundState [1]).n ∧ 0 < (boundState [1]).paylen := by decide

theorem test_witness_OpenWritesThePreamble :
    State.reset.phase = .closed ∧ State.reset.slen = 0 ∧ State.reset.ioOk 3 := by decide

theorem test_witness_OpenOfExistingOutputFaults : State.reset.phase = .closed := rfl

theorem test_witness_FinalizePatchesTheLength :
    openState.phase = .opened ∧ 4 + 8 = openState.slen ∧ openState.ioOk 1 := by decide

theorem test_witness_PreambleRecordIsAppended : State.reset.phase ≠ .faulted ∧ State.reset.ioOk 3 := by decide

/-- With one chunk and with none. -/
theorem test_witness_ConvertAppendsThePayload :
    openState.phase = .opened ∧ openState.params.zeroSrcConsumes = false ∧ [(1 : Byte)].length < 2 ^ 32 ∧
      payloadOf [1] = some [1] ∧ 1 = ([(1 : Byte)].length + 16383) / 16384 ∧ 0 ≤ firstBank openState ∧
      firstBank openState + (1 : Nat) ≤ 100 ∧ openState.slen + 8 * 1 + 1 ≤ 2 ^ 32 + 7 ∧ openState.ioOk (2 + 5 * 1) ∧
      payloadOf [] = some [] ∧ 0 = (([] : List Byte).length + 16383) / 16384 := by decide

theorem reset_justReset : JustReset State.reset := ⟨rfl, rfl, rfl, rfl, rfl, rfl, rfl, rfl, rfl, rfl⟩

/-- What a run's hypotheses ask of the block. -/
theorem run_from_reset (k : Nat) :
    JustReset State.reset ∧ State.reset.params.zeroSrcConsumes = false ∧ State.reset.ioQuiet ∧
      ∀ d, State.reset.params.qdepth = some d → k ≤ d :=
  ⟨reset_justReset, rfl, by decide, by simp [State.reset, Config.Params.defaults]⟩

theorem test_witness_RunMakesTheReferenceContainer :
    (JustReset State.reset ∧ State.reset.params.zeroSrcConsumes = false ∧ State.reset.ioQuiet ∧
        ∀ d, State.reset.params.qdepth = some d → 1 ≤ d) ∧
      (∀ src ∈ [srcG, [(1 : Byte)]], src.length < 2 ^ 32) ∧ (container [srcG, [1]] [5]).isSome = true :=
  ⟨run_from_reset 1, by decide +kernel, by decide +kernel⟩

theorem test_witness_RunContainerReadsBack :
    JustReset State.reset ∧ (container [srcG, [1]] [5]).isSome = true := ⟨reset_justReset, by decide +kernel⟩

theorem test_witness_RunWithoutListNumbersFromZero :
    JustReset State.reset ∧ (container [srcG, [1]] []).isSome = true := ⟨reset_justReset, by decide +kernel⟩

theorem test_witness_EmptyRunMakesTheEmptyContainer :
    JustReset State.reset ∧ ∀ src ∈ [[], List.replicate 128 (0 : Byte)], src.length < 2 ^ 32 ∧ payloadOf src = some [] :=
  ⟨reset_justReset, by decide +kernel⟩

theorem test_witness_ExplicitListNumbersTheSources :
    (JustReset State.reset ∧ State.reset.params.zeroSrcConsumes = false ∧ State.reset.ioQuiet ∧
        ∀ d, State.reset.params.qdepth = some d → 2 ≤ d) ∧
      payloadOf srcG = some [0xDE, 0xAD, 0xBE, 0xEF] ∧ payloadOf [1] = some [1] := ⟨run_from_reset 2, by decide +kernel⟩

theorem test_witness_CounterContinuesFromTheList :
    (JustReset State.reset ∧ State.reset.params.zeroSrcConsumes = false ∧ State.reset.ioQuiet ∧
        ∀ d, State.reset.params.qdepth = some d → 1 ≤ d) ∧
      payloadOf (List.replicate 16385 0x5A) = some (List.replicate 16385 0x5A) ∧
      16384 < (List.replicate 16385 (0x5A : Byte)).length ∧ (List.replicate 16385 (0x5A : Byte)).length ≤ 32768 :=
  ⟨run_from_reset 1, by
    have h : headerPresent (List.replicate 16385 (0x5A : Byte)) = false := by decide +kernel
    rw [payloadOf, if_neg fun hc => Bool.false_ne_true (h.symm.trans hc.2)], by rw [List.length_replicate]; decide, by rw [List.length_replicate]; decide⟩

theorem test_witness_TwoSourceRunMakesThreeRecords :
    JustReset State.reset ∧ (List.replicate 100 (1 : Byte)).length = 100 ∧
      (List.replicate 20000 (0x5A : Byte)).length = 20000 ∧ headerPresent (List.replicate 20000 0x5A) = false :=
  ⟨reset_justReset, List.length_replicate, List.length_replicate, by decide +kernel⟩

theorem test_witness_RunToExistingOutputFaults :
    JustReset State.reset ∧ ∀ d, State.reset.params.qdepth = some d → 2 ≤ d :=
  ⟨reset_justReset, (run_from_reset 2).2.2.2⟩

theorem test_witness_DetailsOnlyRunOnlyReports :
    JustReset State.reset ∧ State.reset.ioQuiet ∧ ∀ d, State.reset.params.qdepth = some d → 2 ≤ d :=
  ⟨reset_justReset, by decide, (run_from_reset 2).2.2.2⟩

theorem test_witness_FaultedIgnoresEverythingButReset :
    faultedState.phase = .faulted ∧ Instr.cprFinalize ≠ .reset := by decide

theorem test_witness_PhaseTableHolds :
    encodeOp .cprEncode = some { code := 0x21 } ∧ State.reset.phase ≠ .faulted ∧
      phaseAllows .cprEncode State.reset = false ∧ phaseAllows .cprEncode (boundState [1]) = true ∧
      (boundState [1]).fault = 0 ∧ (answer (exec .cprEncode (boundState [1]))).isSome = true := by decide +kernel

theorem test_witness_FaultIsRecordedExactlyWhenFaulted :
    (State.reset.fault ≠ 0 ↔ State.reset.phase = .faulted) ∧ State.reset.fault.toNat ≤ 8 ∧
      (answer (exec .cprEncode State.reset)).isSome = true := by decide

theorem test_witness_FailedFinalizeLeavesTheRest :
    { openState with io := [.error] }.phase = .opened ∧ { openState with io := [.error] }.io = .error :: [] := by decide

theorem test_witness_FailedPayloadAppendKeepsEarlierBytes :
    (emitState 0 12).phase ≠ .faulted ∧ (emitState 0 12).source = some [1] ∧ 1 = min 16384 (emitState 0 12).rem ∧
      0 ≤ (emitState 0 12).bank ∧ (emitState 0 12).bank ≤ 99 ∧ (emitState 0 12).slen + 8 + 1 ≤ 2 ^ 32 + 7 ∧
      (emitState 0 12).pos + 1 ≤ [(1 : Byte)].length ∧
      { emitState 0 12 with io := [.ok, .ok, .ok, .ok, .error] }.io = .ok :: .ok :: .ok :: .ok :: .error :: [] := by decide

theorem test_witness_FailedProbeRecordsIoFailure :
    State.reset.phase ≠ .faulted ∧ { State.reset with io := [.error] }.io = .error :: [] ∧
      { State.reset with io := [.ok, .error] }.io = .ok :: .error :: [] ∧ 128 ≤ srcG.length ∧
      srcG.length < 2 ^ 32 := by decide +kernel

/-- The state after CPR.OPEN meets the invariant, whatever the host hands over next. -/
theorem openState_inv (port : List Command) (io : List IoAnswer) : BlockInv { openState with port := port, io := io } where
  sinkWf := Memory.wf_writeBytes Memory.wf_nil _ _
  pastWf := by intro m hm; cases hm
  faultPhase := by simp [openState, State.reset]
  faultCode := by simp [openState, State.reset]
  noInfo := fun _ => rfl
  width := {
    n := by simp [openState, State.reset]
    paylen := by simp [openState, State.reset]
    pos := by simp [openState, State.reset]
    rem := by simp [openState, State.reset]
    csize := by simp [openState, State.reset]
    slen := by simp [openState]
    csum := by simp [openState, State.reset]
    queue := by intro b hb; cases hb
    bank := by simp [openState, State.reset, bankWordOk] }
  queueFits := rfl
  bank := by simp [openState, State.reset]
  closed := by simp [openState]
  opened := fun _ => ⟨[], by simp [RecordsOk], by
    have h := Holds.append (v := preambleBytes 0) Holds.nil
    simpa [containerBytes, recordsBytes, openState] using h, rfl⟩
  final := by simp [openState]
  probed := fun _ h => by simp [openState, State.reset] at h

/-- BANKS.LOAD in an open container: PhaseError. -/
theorem test_witness_PreciseFaultsLeaveWholeRecords :
    BlockInv { openState with port := [{ code := 0x02 }], io := [] } ∧
      faultOf (step { openState with port := [{ code := 0x02 }], io := [] }) = some (7, 2, .faulted) :=
  ⟨openState_inv _ _, by decide +kernel⟩

theorem test_witness_RegistersHaveOnlyTheirWriters :
    (answer (exec .chunkEmit (emitState 0 12))).isSome = true ∧ Instr.chunkEmit ≠ .reset := by decide +kernel

theorem test_witness_HostSideIsOnlyUsedUp : (answer (exec .chunkEmit (emitState 0 12))).isSome = true := by decide +kernel

theorem test_witness_WrittenBytesStand :
    (answer (exec (.chunk 5 [1]) openState)).isSome = true ∧ openState.phase ≠ .closed := by decide +kernel

theorem test_witness_PlaceholderUntilFinalised :
    BlockInv { openState with port := [], io := [] } ∧ openState.phase = .opened ∧
      (answer (exec (.chunk 5 [1]) openState)).isSome = true ∧
      (answer (exec (.cprOpen false) State.reset)).map (·.phase) = some .opened :=
  ⟨openState_inv _ _, rfl, by decide +kernel, by decide +kernel⟩

theorem test_witness_StepKeepsTheInvariant :
    BlockInv { openState with port := [{ code := 0x10, source := [1] }], io := [] } ∧
      (answer (step { openState with port := [{ code := 0x10, source := [1] }], io := [] })).isSome = true :=
  ⟨openState_inv _ _, by decide +kernel⟩

theorem test_witness_StepNeverStops :
    BlockInv { openState with port := [{ code := 0x22 }], io := [.error] } ∧
      State.ioReturns { openState with port := [{ code := 0x22 }], io := [.error] } := ⟨openState_inv _ _, by decide⟩

theorem test_witness_StepRunsTheDecodedOperation : decode { code := 0x22 } = .ok .cprFinalize := rfl

theorem test_witness_StepWaitsForAnOperation : State.reset.port = [] := rfl

theorem test_witness_CommandsOfAMacroDoTheMacro :
    WellFormed (.run [[1]] (some [5]) true true false) = true ∧ encode (.run [[1]] (some [5]) true true false) ≠ [] := by
  decide

theorem test_witness_DecodeOfEncodedOperation :
    WellFormed (.banksLoad [5, -2147483648]) = true ∧
      encodeOp (.banksLoad [5, -2147483648]) = some { code := 0x02, banks := [5#32, 0x80000000#32] } := by decide

theorem test_witness_DecodeOfEncodedRecord : recA.lengthsOk = true ∧ chunkOk 0 [1] = true ∧ chunkOk 99 [1] = true := by
  decide

theorem test_witness_ScanOfAContainer :
    RecordsOk [(0, [1]), (99, [2])] ∧ 4 + (recordsBytes [(0, [1]), (99, [2])]).length ≤ 2 ^ 32 - 1 :=
  ⟨by simp [RecordsOk, chunkOk], by decide⟩

end Sys2Proof.Tests
end

section
/-! SUPPORT. The bank-number sequencer (41_bank_sequencer.md): an equation per case of BANKS.LOAD, BANK.FIRST and
BANK.NEXT, and the obligations O12 to O14 from them. -/

namespace Sys2Proof

/-- The depth test is passed exactly by the lists no longer than QDEPTH; an unbounded queue takes any (R91). -/
theorem queueFits_iff {qdepth : Option Nat} {k : Nat} :
    queueFits qdepth k = true ↔ ∀ d, qdepth = some d → k ≤ d := by
  cases qdepth <;> simp [queueFits]

end Sys2Proof

namespace Sys2Proof.Machine

/-! ## BANKS.LOAD (R91, R149) -/

theorem exec_banksLoad (list : List Int) (s : State) : exec (.banksLoad list) s = execBanksLoad list s := rfl

theorem execBanksLoad_faulted {s : State} (h : s.phase = .faulted) (list : List Int) :
    execBanksLoad list s = .next s := by
  rw [execBanksLoad, unlessFaulted_faulted h]

theorem execBanksLoad_wrongPhase {s : State} (hf : s.phase ≠ .faulted) (hc : s.phase ≠ .closed) (list : List Int) :
    execBanksLoad list s = raise .phaseError (codeInfo codeBanksLoad) s := by
  rw [execBanksLoad, unlessFaulted_live hf, if_pos hc]

/-- In phase CLOSED only the depth of the queue decides. -/
theorem execBanksLoad_closed {s : State} (h : s.phase = .closed) (list : List Int) :
    execBanksLoad list s =
      if queueFits s.params.qdepth list.length then .next { s with queue := list }
      else raise .queueOverflow (saturate32 list.length) s := by
  have hf : s.phase ≠ .faulted := by simp [h]
  rw [execBanksLoad, unlessFaulted_live hf, if_neg (not_not_intro h)]

theorem execBanksLoad_fits {s : State} (h : s.phase = .closed) {list : List Int}
    (hfit : queueFits s.params.qdepth list.length = true) :
    execBanksLoad list s = .next { s with queue := list } := by
  rw [execBanksLoad_closed h, if_pos hfit]

theorem execBanksLoad_tooLong {s : State} (h : s.phase = .closed) {list : List Int}
    (hlong : ¬ queueFits s.params.qdepth list.length = true) :
    execBanksLoad list s = raise .queueOverflow (saturate32 list.length) s := by
  rw [execBanksLoad_closed h, if_neg hlong]

/-- Settles O12: one equation of `execBanksLoad` per case, the depth test read by `queueFits_iff`. -/
theorem banksLoadReplacesTheQueue : Obligations.BanksLoadReplacesTheQueue := by
  intro list s
  rw [exec_banksLoad]
  refine ⟨fun hf => ?faulted, fun hf hc => ?wrongPhase, fun hc hfit => ?fits, fun d hc hd hlong => ?tooLong⟩
  case faulted => exact execBanksLoad_faulted hf list
  case wrongPhase => exact execBanksLoad_wrongPhase hf hc list
  case fits => exact execBanksLoad_fits hc (queueFits_iff.mpr hfit)
  case tooLong =>
    have hno : ¬ queueFits s.params.qdepth list.length = true := fun hfit =>
      absurd (queueFits_iff.mp hfit d hd) (by omega)
    exact execBanksLoad_tooLong hc hno

/-! ## BANK.FIRST and BANK.NEXT (R92, R93) -/

theorem exec_bankFirst (s : State) : exec .bankFirst s = execBankFirst s := rfl

theorem exec_bankFirst_live {s : State} (h : s.phase ≠ .faulted) : exec .bankFirst s = .next s.bankFirst := by
  rw [exec_bankFirst, execBankFirst, unlessFaulted_live h]

theorem exec_bankNext (s : State) : exec .bankNext s = execBankNext s := rfl

theorem exec_bankNext_live {s : State} (h : s.phase ≠ .faulted) : exec .bankNext s = .next s.bankNext := by
  rw [exec_bankNext, execBankNext, unlessFaulted_live h]

/-- The explicit queue pop (R92). -/
theorem State.bankFirst_cons {s : State} {b : Int} {rest : List Int} (h : s.queue = b :: rest) :
    s.bankFirst = { s with bank := b, queue := rest } := by
  simp [State.bankFirst_eq, h]

/-- The fallback counter increment (R92): with no entry queued, BANK.FIRST is BANK.NEXT. -/
theorem State.bankFirst_nil {s : State} (h : s.queue = []) : s.bankFirst = s.bankNext := by
  simp [State.bankFirst_eq, State.bankNext, h]

/-- Settles O13: the numbering decision runs, and the queue decides between the pop and the increment. -/
theorem bankFirstPopsOrIncrements : Obligations.BankFirstPopsOrIncrements := by
  intro s hlive
  rw [exec_bankFirst_live hlive]
  refine ⟨fun b rest hq => ?pop, fun hq => ?increment⟩
  case pop => rw [State.bankFirst_cons hq]
  case increment => rw [State.bankFirst_nil hq, State.bankNext]

/-- Settles O14: BANK.NEXT answers `State.bankNext`, the increment of BANK. -/
theorem bankNextIncrements : Obligations.BankNextIncrements :=
  fun _ hlive => exec_bankNext_live hlive

end Sys2Proof.Machine
end

section
/-! SUPPORT. CPR.ENCODE before its loop (42_chunk_encoder.md R100 to R104): the two tests in phase OPEN, the numbering
decision, and the obligation O20, a payload of length 0. -/

namespace Sys2Proof

/-- The underrun test lets every source pass that holds the bytes its header announces (R102). -/
theorem not_underrun {pos paylen n : Nat} (hfits : pos + paylen ≤ n) : ¬ underrun pos paylen n = true := by
  rw [underrun, decide_eq_true_eq]
  omega

end Sys2Proof

namespace Sys2Proof.Machine

theorem exec_cprEncode (s : State) : exec .cprEncode s = execCprEncode s := rfl

/-- In phase OPEN with a source bound, only the underrun test stands before the loop (R101, R102). -/
theorem execCprEncode_open {s : State} (hphase : s.phase = .opened) (hvalid : s.srcValid = true) :
    execCprEncode s =
      if underrun s.pos s.paylen s.n then raise .sourceUnderrun (BitVec.ofNat 32 s.n) s
      else andThen (encodeLoop (chunkCount s.paylen) s.startEncode) fun s => .next { s with srcValid := false } := by
  have hlive : s.phase ≠ .faulted := by simp [hphase]
  have hallowed : ¬ (s.phase ≠ .opened ∨ s.srcValid = false) := by simp [hphase, hvalid]
  exact (unlessFaulted_live hlive _).trans (if_neg hallowed)

/-- A source long enough for its payload is encoded (R100). -/
theorem execCprEncode_fits {s : State} (hphase : s.phase = .opened) (hvalid : s.srcValid = true)
    (hfits : s.pos + s.paylen ≤ s.n) :
    execCprEncode s =
      andThen (encodeLoop (chunkCount s.paylen) s.startEncode) fun s => .next { s with srcValid := false } := by
  rw [execCprEncode_open hphase hvalid, if_neg (not_underrun hfits)]

/-! ## The numbering decision (R103, R92) -/

theorem State.startEncode_eq (s : State) :
    s.startEncode =
      if 0 < s.paylen || s.params.zeroSrcConsumes then State.bankFirst { s with rem := s.paylen }
      else { s with rem := s.paylen } := rfl

theorem State.startEncode_phase (s : State) : s.startEncode.phase = s.phase := by
  rw [State.startEncode_eq, apply_ite State.phase, State.bankFirst_eq, ite_self]

/-- An empty payload takes no number unless P_ZERO_SRC_CONSUMES (R103). -/
theorem State.startEncode_keeps {s : State} (hempty : s.paylen = 0) (hparam : s.params.zeroSrcConsumes = false) :
    s.startEncode = { s with rem := 0 } := by
  rw [State.startEncode_eq, if_neg (by simp [hempty, hparam]), hempty]

/-- Under P_ZERO_SRC_CONSUMES every source takes its number, an empty one too (R103, R95). -/
theorem State.startEncode_consumes {s : State} (hparam : s.params.zeroSrcConsumes = true) :
    s.startEncode = { s with rem := s.paylen, bank := firstBank s, queue := s.queue.tail } := by
  rw [State.startEncode_eq, if_pos (by simp [hparam])]
  exact State.bankFirst_eq _

/-! ## The empty payload (R103) -/

theorem encodeLoop_zero (s : State) : encodeLoop 0 s = .next s := rfl

/-- With no chunk to write the loop does not run: SRC_VALID is cleared after the numbering decision. -/
theorem execCprEncode_empty {s : State} (hphase : s.phase = .opened) (hvalid : s.srcValid = true)
    (hempty : s.paylen = 0) (hfits : s.pos ≤ s.n) :
    execCprEncode s = .next { s.startEncode with srcValid := false } := by
  have hlive : s.startEncode.phase ≠ .faulted := by
    rw [State.startEncode_phase, hphase]
    simp
  rw [execCprEncode_fits hphase hvalid (by omega), hempty, chunkCount_zero, encodeLoop_zero, andThen_live hlive]

/-- Settles O20: no chunk is written, and P_ZERO_SRC_CONSUMES decides whether a number is taken. -/
theorem encodeOfEmptyPayloadWritesNothing : Obligations.EncodeOfEmptyPayloadWritesNothing := by
  intro s hphase hvalid hempty hfits
  rw [exec_cprEncode, execCprEncode_empty hphase hvalid hempty hfits]
  refine ⟨fun hparam => ?keeps, fun hparam => ?consumes⟩
  case keeps => rw [State.startEncode_keeps hempty hparam]
  case consumes => rw [State.startEncode_consumes hparam, hempty]

end Sys2Proof.Machine
end

section
/-! SUPPORT. A run that writes no record (43_container_framer.md R116 to R120, 44_run_control.md R125 to R129): the
framer when its primitive calls succeed, the payload a probe binds, RUN up to its first framer operation, and the
obligation O32. -/

namespace Sys2Proof

/-- A source without a header is all payload (R129). -/
theorem payloadOf_noHeader {src : Source} (h : ¬ (128 ≤ src.length ∧ headerPresent src = true)) :
    payloadOf src = some src := if_neg h

/-- A source with a header holds the payload its header announces (R129). -/
theorem payloadOf_header {src : Source} {payload : List Byte} (hlong : 128 ≤ src.length)
    (hmatch : headerPresent src = true) (h : payloadOf src = some payload) :
    128 + (le16 src 24).toNat ≤ src.length ∧ payload = bytesAt src 128 (le16 src 24).toNat := by
  have hheader : payloadOf src =
      if 128 + (le16 src 24).toNat ≤ src.length then some (bytesAt src 128 (le16 src 24).toNat) else none :=
    if_pos ⟨hlong, hmatch⟩
  rw [hheader, Option.ite_none_right_eq_some, Option.some.injEq] at h
  exact ⟨h.1, h.2.symm⟩

theorem length_bytesAt {b : List Byte} {o n : Nat} (h : o + n ≤ b.length) : (bytesAt b o n).length = n := by
  rw [bytesAt, List.length_take, List.length_drop]
  omega

end Sys2Proof

namespace Sys2Proof.Machine

/-! ## The framer (R116, R118) -/

/-- CPR.OPEN of an output that does not exist, its three primitive calls succeeding (R116). -/
theorem execCprOpen_ok {s : State} (hclosed : s.phase = .closed) (hio : s.ioOk 3) :
    execCprOpen false s = .next { s.newSink with
      io := s.io.drop 3, sink := Memory.writeBytes [] s.slen (preambleBytes 0), slen := s.slen + 12,
      phase := .opened } := by
  have hlive : s.phase ≠ .faulted := by simp [hclosed]
  rw [execCprOpen, unlessFaulted_live hlive, if_neg (not_not_intro hclosed), if_neg Bool.false_ne_true,
    appendPreamble_ok (by exact hlive) (by exact hio), andThen_live (by exact hlive)]
  rfl

/-- CPR.FINALIZE, its one primitive call succeeding (R118). -/
theorem execCprFinalize_ok {s : State} (hopen : s.phase = .opened) (hio : s.ioAnswer = .ok) :
    execCprFinalize s = .next { s with
      io := s.io.tail, sink := s.sink.writeBytes 4 (le32Bytes (finalLength s.slen)), phase := .final } := by
  have hlive : s.phase ≠ .faulted := by simp [hopen]
  rw [execCprFinalize, unlessFaulted_live hlive, if_neg (not_not_intro hopen), memWrite_ok hio,
    andThen_live (by exact hlive)]
  rfl

theorem length_containerBytes (len : BitVec 32) (records : List (Int × List Byte)) :
    (containerBytes len records).length = 12 + (recordsBytes records).length := by
  rw [containerBytes, List.length_append, length_preambleBytes]

/-- The length field CPR.FINALIZE writes makes a container of whole records the finalised one (R118, R119). -/
theorem Holds.finalized {m : Memory} {records : List (Int × List Byte)} (h : Holds m (containerBytes 0 records)) :
    Holds (m.writeBytes 4 (le32Bytes (finalLength (containerBytes 0 records).length))) (finalContainer records) := by
  have hlength : (containerBytes 0 records).length - 8 = 4 + (recordsBytes records).length := by
    rw [length_containerBytes]
    omega
  have hfield : finalLength (containerBytes 0 records).length =
      BitVec.ofNat 32 (4 + (recordsBytes records).length) := congrArg (BitVec.ofNat 32) hlength
  have hsplit : ∀ len : BitVec 32,
      containerBytes len records = tagRiff ++ le32Bytes len ++ (tagAms ++ recordsBytes records) :=
    fun len => List.append_assoc _ _ _
  rw [hsplit 0] at h
  rw [hfield, finalContainer, hsplit]
  exact Holds.patch h rfl

/-! ## A container of whole records, from CPR.OPEN to CPR.FINALIZE (R64, R121) -/

/-- An open container of these records, its length field still 0, and nothing in the way of the next source: no fault
taken, the default P_ZERO_SRC_CONSUMES, every primitive call to come answered. -/
def OpenContainer (records : List (Int × List Byte)) (s : State) : Prop :=
  s.phase = .opened ∧ s.fault = 0 ∧ Holds s.sink (containerBytes 0 records) ∧
    s.slen = (containerBytes 0 records).length ∧ s.params.zeroSrcConsumes = false ∧ s.ioQuiet

theorem OpenContainer.live {records : List (Int × List Byte)} {s : State} (h : OpenContainer records s) :
    s.phase ≠ .faulted := by simp [h.1]

theorem State.ioQuiet_drop {s t : State} (h : s.ioQuiet) {k : Nat} (ht : t.io = s.io.drop k) : t.ioQuiet :=
  fun a ha => h a (List.mem_of_mem_drop (ht ▸ ha))

/-- CPR.OPEN opens the container without a record (R116). -/
theorem execCprOpen_container {s : State} (hclosed : s.phase = .closed) (hfault : s.fault = 0) (hslen : s.slen = 0)
    (hparam : s.params.zeroSrcConsumes = false) (hio : s.ioQuiet) :
    ∃ t, execCprOpen false s = .next t ∧ OpenContainer [] t := by
  rw [execCprOpen_ok hclosed (State.ioQuiet_ok hio 3), hslen]
  exact ⟨_, rfl, rfl, hfault, Holds.nil.append (v := preambleBytes 0), rfl, hparam, State.ioQuiet_drop hio rfl⟩

/-- CPR.FINALIZE leaves the finalised container of its records (R118, R64). -/
theorem execCprFinalize_container {records : List (Int × List Byte)} {s : State} (h : OpenContainer records s) :
    ∃ t, execCprFinalize s = .next t ∧ t.phase = .final ∧ t.fault = 0 ∧
      t.slen = (finalContainer records).length ∧ Holds t.sink (finalContainer records) := by
  obtain ⟨hphase, hfault, hsink, hslen, -, hio⟩ := h
  rw [execCprFinalize_ok hphase (State.ioOk_succ (State.ioQuiet_ok hio 1)).1, hslen]
  refine ⟨_, rfl, rfl, hfault, ?_, hsink.finalized⟩
  rw [finalContainer, length_containerBytes, length_containerBytes]

/-! ## The payload a probe binds (R77, R81, R82, R129) -/

/-- HDR.PROBE points CPR.ENCODE at the source's payload, all of it inside the source, and leaves the container alone. -/
theorem execHdrProbe_bindsPayload {src : Source} {payload : List Byte} {records : List (Int × List Byte)} {s : State}
    (h : OpenContainer records s) (hlen : src.length < 2 ^ 32) (hpay : payloadOf src = some payload) :
    ∃ t, execHdrProbe src s = .next t ∧ OpenContainer records t ∧ t.srcValid = true ∧ t.paylen = payload.length ∧
      t.pos + t.paylen ≤ t.n := by
  have hlive := h.live
  obtain ⟨hphase, hfault, hsink, hslen, hparam, hio⟩ := h
  by_cases hlong : 128 ≤ src.length
  · rw [execHdrProbe_full hlive (State.ioQuiet_ok hio 2) hlong hlen]
    refine ⟨_, rfl, ?_⟩
    cases hmatch : headerPresent src with
    | true =>
      obtain ⟨hfits, rfl⟩ := payloadOf_header hlong hmatch hpay
      rw [probeHeader_match hmatch]
      exact ⟨⟨hphase, hfault, hsink, hslen, hparam, State.ioQuiet_drop hio (k := 2) rfl⟩, rfl,
        (length_bytesAt hfits).symm, hfits⟩
    | false =>
      rw [payloadOf_noHeader (by simp [hmatch])] at hpay
      cases hpay
      rw [probeHeader_mismatch hmatch]
      exact ⟨⟨hphase, hfault, hsink, hslen, hparam, State.ioQuiet_drop hio (k := 2) rfl⟩, rfl, rfl,
        (Nat.zero_add _).le⟩
  · rw [payloadOf_noHeader fun hheader => hlong hheader.1] at hpay
    cases hpay
    rw [execHdrProbe_short hlive (State.ioQuiet_ok hio 1) (by omega)]
    exact ⟨_, rfl, ⟨hphase, hfault, hsink, hslen, hparam, State.ioQuiet_drop hio (tail_eq_drop _)⟩, rfl, rfl,
      (Nat.zero_add _).le⟩

/-! ## Sources without a payload (R103, R120) -/

/-- CONVERT of a source without a payload leaves the container alone. -/
theorem execConvert_empty {src : Source} {records : List (Int × List Byte)} {s : State} (h : OpenContainer records s)
    (hlen : src.length < 2 ^ 32) (hpay : payloadOf src = some []) :
    ∃ t, execConvert src s = .next t ∧ OpenContainer records t := by
  obtain ⟨u, hprobe, hu, hvalid, hempty, hfits⟩ := execHdrProbe_bindsPayload h hlen hpay
  have hlive := hu.live
  obtain ⟨hphase, hfault, hsink, hslen, hparam, hio⟩ := hu
  rw [execConvert, hprobe, andThen_live hlive, execCprEncode_empty hphase hvalid hempty (Nat.le_of_add_right_le hfits),
    State.startEncode_keeps hempty hparam]
  exact ⟨_, rfl, hphase, hfault, hsink, hslen, hparam, hio⟩

/-- RUN's loop over such sources leaves the container alone, however many there are. -/
theorem runSources_empty (sources : List Source) {records : List (Int × List Byte)} {s : State}
    (h : OpenContainer records s) (hlen : ∀ src ∈ sources, src.length < 2 ^ 32)
    (hpay : ∀ src ∈ sources, payloadOf src = some []) :
    ∃ t, runSources true sources s = .next t ∧ OpenContainer records t := by
  induction sources generalizing s with
  | nil => exact ⟨s, rfl, h⟩
  | cons src rest ih =>
    obtain ⟨hlenSrc, hlenRest⟩ := List.forall_mem_cons.mp hlen
    obtain ⟨hpaySrc, hpayRest⟩ := List.forall_mem_cons.mp hpay
    obtain ⟨u, hconvert, hu⟩ := execConvert_empty h hlenSrc hpaySrc
    rw [runSources, if_pos rfl, hconvert, andThen_live hu.live]
    exact ih hu hlenRest hpayRest

/-! ## RUN (R125, R138) -/

theorem exec_run (sources : List Source) (banks : Option (List Int)) (details sink sinkExists : Bool) (s : State) :
    exec (.run sources banks details sink sinkExists) s = execRun sources banks details sink sinkExists s := rfl

/-- RUN in phase CLOSED with an empty queue and a list that fits: DETAILS and QUEUE are set, then the sink is opened. -/
theorem exec_run_closed {s : State} (hclosed : s.phase = .closed) (hqueue : s.queue = []) {banks : Option (List Int)}
    (hfit : queueFits s.params.qdepth (banks.getD []).length = true) (sources : List Source)
    (details sink sinkExists : Bool) :
    exec (.run sources banks details sink sinkExists) s =
      andThen (if sink then execCprOpen sinkExists { s with details := details, queue := banks.getD [] }
          else .next { s with details := details, queue := banks.getD [] }) fun s =>
        andThen (runSources sink sources s) fun s => if sink then execCprFinalize s else .next s := by
  have hlive : s.phase ≠ .faulted := by simp [hclosed]
  rw [exec_run, execRun, execDetailsSet, unlessFaulted_live hlive, andThen_live (by exact hlive)]
  cases banks with
  | some list =>
    dsimp only
    rw [execBanksLoad_fits (by exact hclosed) (by exact hfit), andThen_live (by exact hlive)]
    rfl
  | none =>
    dsimp only
    rw [andThen_live (by exact hlive)]
    simp only [Option.getD_none, ← hqueue]

/-- Settles O32: CPR.OPEN leaves the container without a record, no source adds one, and CPR.FINALIZE patches its length
field to 4. -/
theorem emptyRunMakesTheEmptyContainer : Obligations.EmptyRunMakesTheEmptyContainer := by
  intro sources banks details s hreset hparam hio hlen hdepth hpay
  obtain ⟨u, hrunOpen, hu⟩ := execCprOpen_container (s := { s with details := details, queue := banks.getD [] })
    hreset.phase hreset.fault hreset.slen hparam hio
  obtain ⟨v, hrunSources, hv⟩ := runSources_empty sources hu hlen hpay
  obtain ⟨t, hrunFinalize, ht⟩ := execCprFinalize_container hv
  refine ⟨t, ?_, ht⟩
  rw [exec_run_closed hreset.phase hreset.queue (queueFits_iff.mpr hdepth), if_pos rfl, hrunOpen,
    andThen_live hu.live, hrunSources, andThen_live hv.live, if_pos rfl, hrunFinalize]

end Sys2Proof.Machine
end

section
/-! SUPPORT. Run control (44_run_control.md R124 to R127): DETAILS.SET, CONVERT as the two operations of its expansion,
RUN to an output that exists, and the obligations O3, O27 and O36.

From here on a function's equation is a lemma by `rfl` and a closed formula is opened by `delta`: a rewrite by the
definition's own name has Lean derive its equations anew in every proof. -/

namespace Sys2Proof.Machine

/-! ## DETAILS.SET (R124) -/

theorem exec_detailsSet (d : Bool) (s : State) :
    exec (.detailsSet d) s = unlessFaulted s fun s => .next { s with details := d } := rfl

/-- Settles O3: the one test of DETAILS.SET is the one for phase FAULTED. -/
theorem detailsSetWritesTheFlag : Obligations.DetailsSetWritesTheFlag := by
  intro d s
  rw [exec_detailsSet]
  exact ⟨fun hlive => unlessFaulted_live hlive _, fun hfaulted => unlessFaulted_faulted hfaulted _⟩

/-! ## CONVERT (R126) -/

theorem exec_convert (src : Source) (s : State) : exec (.convert src) s = execConvert src s := rfl

theorem execCprEncode_faulted {s : State} (h : s.phase = .faulted) : execCprEncode s = .next s :=
  unlessFaulted_faulted h _

theorem execAll_singleton (i : Instr) (s : State) : execAll [i] s = exec i s := by
  change (match exec i s with | .next t => .next t | .fault f => .fault f | .refused e => .refused e) = exec i s
  cases exec i s <;> rfl

/-- An operation that changes nothing in phase FAULTED may be issued after one that faulted: to run it after any answer,
or only after one without a fault, is the same (R125, R157). -/
theorem execAll_pair {i j : Instr} (hskip : ∀ t : State, t.phase = .faulted → exec j t = .next t) (s : State) :
    execAll [i, j] s = andThen (exec i s) (exec j) := by
  have hpair : execAll [i, j] s =
      match exec i s with | .next t => execAll [j] t | .fault f => .fault f | .refused e => .refused e := rfl
  rw [hpair]
  cases exec i s with
  | next t =>
    dsimp only
    rw [execAll_singleton]
    by_cases hfaulted : t.phase = .faulted
    · rw [hskip t hfaulted, andThen_next, if_pos hfaulted]
    · rw [andThen_live hfaulted]
  | fault f => rfl
  | refused e => rfl

/-- Settles O27: CPR.ENCODE changes nothing after a probe that faulted, so the sequence of CONVERT is the two operations
run one after the other. -/
theorem convertIsProbeThenEncode : Obligations.ConvertIsProbeThenEncode := by
  intro src s
  rw [exec_convert, execAll_pair (j := .cprEncode) fun t hfaulted => execCprEncode_faulted hfaulted]
  rfl

/-! ## RUN to an output that exists (R117, R137) -/

/-- CPR.OPEN of an output that exists (R117). -/
theorem execCprOpen_exists {s : State} (hclosed : s.phase = .closed) :
    execCprOpen true s = raise .sinkExists 0 s := by
  have hlive : s.phase ≠ .faulted := by simp [hclosed]
  exact (unlessFaulted_live hlive _).trans ((if_neg (not_not_intro hclosed)).trans (if_pos rfl))

/-- Settles O36: CPR.OPEN raises SinkExists, and the sequence ends there, before any source is probed. -/
theorem runToExistingOutputFaults : Obligations.RunToExistingOutputFaults := by
  intro sources banks details s hreset hdepth
  rw [exec_run_closed hreset.phase hreset.queue (queueFits_iff.mpr hdepth), if_pos rfl,
    execCprOpen_exists (by exact hreset.phase)]
  rfl

end Sys2Proof.Machine
end

section
/-! SUPPORT. What HDR.PROBE leaves when its primitive calls succeed (40_header_validator.md R75 to R87), and a run that
only probes (44_run_control.md R127): the obligation O37. -/

namespace Sys2Proof

/-- The probed registers point at the source's payload (R77, R81, R82, R129). -/
def PointsAtPayload (src : Source) (pos paylen : Nat) : Prop :=
  ∀ payload, payloadOf src = some payload → pos + paylen ≤ src.length ∧ bytesAt src pos paylen = payload

theorem pointsAtPayload_noHeader {src : Source} (h : ¬ (128 ≤ src.length ∧ headerPresent src = true)) :
    PointsAtPayload src 0 src.length := by
  intro payload hpay
  rw [payloadOf_noHeader h, Option.some.injEq] at hpay
  exact ⟨(Nat.zero_add _).le, List.take_length.trans hpay⟩

theorem pointsAtPayload_header {src : Source} (hlong : 128 ≤ src.length) (hmatch : headerPresent src = true) :
    PointsAtPayload src 128 (le16 src 24).toNat := by
  intro payload hpay
  obtain ⟨hfits, rfl⟩ := payloadOf_header hlong hmatch hpay
  exact ⟨hfits, rfl⟩

end Sys2Proof

namespace Sys2Proof.Machine

/-! ## The validator's registers (R87) -/

/-- `t` is `s` but for what HDR.PROBE writes: the bound source, the validator's registers, the report channel and the
answers of the primitive calls (R10, R87). -/
def OnlyProbed (s t : State) : Prop :=
  t = { s with
    source := t.source, n := t.n, csum := t.csum, hasHdr := t.hasHdr, paylen := t.paylen, pos := t.pos, hf := t.hf,
    srcValid := t.srcValid, reports := t.reports, io := t.io }

theorem OnlyProbed.refl (s : State) : OnlyProbed s s := rfl

theorem OnlyProbed.trans {s t u : State} (h : OnlyProbed s t) (h' : OnlyProbed t u) : OnlyProbed s u :=
  Eq.trans h' (by rw [h])

theorem OnlyProbed.fields {s t : State} (h : OnlyProbed s t) :
    t.bank = s.bank ∧ t.queue = s.queue ∧ t.details = s.details ∧ t.phase = s.phase ∧ t.fault = s.fault ∧
      t.finfo = s.finfo ∧ t.slen = s.slen ∧ t.sink = s.sink ∧ t.pastSinks = s.pastSinks ∧ t.params = s.params := by
  rw [h]
  exact ⟨rfl, rfl, rfl, rfl, rfl, rfl, rfl, rfl, rfl, rfl⟩

theorem OnlyProbed.live {s t : State} (h : OnlyProbed s t) (hlive : s.phase ≠ .faulted) : t.phase ≠ .faulted := by
  obtain ⟨-, -, -, hphase, -⟩ := h.fields
  rwa [hphase]

/-! ## A probe whose primitive calls succeed (R75) -/

/-- From `s` to `t` source `src` was probed: it is bound and described, and the event is emitted if DETAILS is set. -/
def ProbeDone (src : Source) (s t : State) : Prop :=
  OnlyProbed s t ∧ t.source = some src ∧ t.n = src.length ∧ t.srcValid = true ∧ PointsAtPayload src t.pos t.paylen ∧
    t.reports = s.reports ++ (if s.details then [reportOf src] else []) ∧ ∃ k ≤ 2, t.io = s.io.drop k

theorem ProbeDone.ioQuiet {src : Source} {s t : State} (h : ProbeDone src s t) (hio : s.ioQuiet) : t.ioQuiet := by
  obtain ⟨-, -, -, -, -, -, k, -, hk⟩ := h
  exact State.ioQuiet_drop hio hk

theorem reportOf_noHeader {src : Source} (h : ¬ (128 ≤ src.length ∧ headerPresent src = true)) :
    reportOf src = .noHeader := if_neg h

theorem reportOf_header {src : Source} (hlong : 128 ≤ src.length) (hmatch : headerPresent src = true) :
    reportOf src = .header (hdrFields src) := if_pos ⟨hlong, hmatch⟩

theorem append_ite_nil {α : Type} (c : Bool) (l m : List α) :
    (if c then l ++ m else l) = l ++ if c then m else [] := by
  cases c <;> simp

/-- The end of a probe that found no header, short or mismatched. -/
theorem finishProbe_noHeader {src : Source} (h : ¬ (128 ≤ src.length ∧ headerPresent src = true)) (s : State) {k : Nat}
    (hk : k ≤ 2) (csum : BitVec 16) :
    ProbeDone src s (finishProbe (State.noHeader
      { s with source := some src, n := src.length, csum := csum, io := s.io.drop k })) := by
  refine ⟨rfl, rfl, rfl, rfl, pointsAtPayload_noHeader h, ?_, k, hk, rfl⟩
  rw [reportOf_noHeader h]
  exact append_ite_nil _ _ _

/-- The end of a probe that found a header. -/
theorem finishProbe_header {src : Source} (hlong : 128 ≤ src.length) (hmatch : headerPresent src = true) (s : State)
    (csum : BitVec 16) :
    ProbeDone src s (finishProbe (State.foundHeader
      { s with source := some src, n := src.length, csum := csum, io := s.io.drop 2 } src)) := by
  refine ⟨rfl, rfl, rfl, rfl, pointsAtPayload_header hlong hmatch, ?_, 2, Nat.le_refl 2, rfl⟩
  rw [reportOf_header hlong hmatch]
  exact append_ite_nil _ _ _

/-- HDR.PROBE of a source of legal length, its primitive calls succeeding: short, match or mismatch (R77 to R82). -/
theorem execHdrProbe_done {src : Source} {s : State} (hlive : s.phase ≠ .faulted) (hio : s.ioOk 2)
    (hlen : src.length < 2 ^ 32) : ∃ t, execHdrProbe src s = .next t ∧ ProbeDone src s t := by
  by_cases hlong : 128 ≤ src.length
  · rw [execHdrProbe_full hlive hio hlong hlen]
    refine ⟨_, rfl, ?_⟩
    cases hmatch : headerPresent src with
    | true =>
      rw [probeHeader_match hmatch]
      exact finishProbe_header hlong hmatch s _
    | false =>
      rw [probeHeader_mismatch hmatch]
      exact finishProbe_noHeader (by simp [hmatch]) s (Nat.le_refl 2) _
  · rw [execHdrProbe_short hlive (State.ioOk_mono hio (by omega)) (by omega), tail_eq_drop]
    exact ⟨_, rfl, finishProbe_noHeader (fun hheader => hlong hheader.1) s (by omega) s.csum⟩

/-! ## A details-only run (R127) -/

theorem runSources_cons (sink : Bool) (src : Source) (rest : List Source) (s : State) :
    runSources sink (src :: rest) s =
      andThen (if sink then execConvert src s else execHdrProbe src s) (runSources sink rest) := rfl

/-- RUN's loop without a sink probes and reports the sources in order, and does nothing else. -/
theorem runSources_onlyProbes (sources : List Source) {s : State} (hlive : s.phase ≠ .faulted) (hio : s.ioQuiet)
    (hlen : ∀ src ∈ sources, src.length < 2 ^ 32) :
    ∃ t, runSources false sources s = .next t ∧ OnlyProbed s t ∧
      t.reports = s.reports ++ (if s.details then sources.map reportOf else []) := by
  induction sources generalizing s with
  | nil => exact ⟨s, rfl, .refl s, by simp⟩
  | cons src rest ih =>
    obtain ⟨hlenSrc, hlenRest⟩ := List.forall_mem_cons.mp hlen
    obtain ⟨u, hrunProbe, hdone⟩ := execHdrProbe_done hlive (State.ioQuiet_ok hio 2) hlenSrc
    have hioRest := hdone.ioQuiet hio
    obtain ⟨hu, -, -, -, -, hreport, -⟩ := hdone
    obtain ⟨-, -, hdetails, -⟩ := hu.fields
    obtain ⟨t, hrunRest, ht, hreports⟩ := ih (hu.live hlive) hioRest hlenRest
    refine ⟨t, ?_, hu.trans ht, ?_⟩
    · rw [runSources_cons, if_neg Bool.false_ne_true, hrunProbe, andThen_live (hu.live hlive), hrunRest]
    · rw [hreports, hreport, hdetails]
      cases s.details <;> simp

/-- Settles O37: without a sink RUN is DETAILS.SET, BANKS.LOAD and one probe a source. -/
theorem detailsOnlyRunOnlyReports : Obligations.DetailsOnlyRunOnlyReports := by
  intro sources banks details sinkExists s hreset hio hlen hdepth
  have hclosed := hreset.phase
  have hlive : s.phase ≠ .faulted := by simp [hclosed]
  obtain ⟨t, hrun, ht, hreports⟩ := runSources_onlyProbes sources
    (s := { s with details := details, queue := banks.getD [] }) hlive hio hlen
  obtain ⟨hbank, hqueue, -, hphase, hfault, -, hslen, hsink, hpast, -⟩ := ht.fields
  refine ⟨t, ?_, hbank, hqueue, hslen.trans hreset.slen, hphase.trans hclosed, hfault.trans hreset.fault, hsink, hpast,
    ?_⟩
  · rw [exec_run_closed hclosed hreset.queue (queueFits_iff.mpr hdepth), if_neg Bool.false_ne_true,
      andThen_live (by exact hlive), hrun, andThen_live (ht.live hlive), if_neg Bool.false_ne_true]
  · rw [hreports, hreset.reports, List.nil_append]

end Sys2Proof.Machine
end

section
/-! SUPPORT. The records of a payload as lists (42_chunk_encoder.md R106, R110, R113), and CPR.ENCODE's loop when every
primitive call succeeds: it appends exactly these records (R104, R111). -/

namespace Sys2Proof

theorem recordsBytes_nil : recordsBytes [] = [] := rfl

theorem recordsBytes_cons (bank : Int) (payload : List Byte) (records : List (Int × List Byte)) :
    recordsBytes ((bank, payload) :: records) = chunkBytes bank payload ++ recordsBytes records :=
  List.flatMap_cons

theorem recordsBytes_append (a b : List (Int × List Byte)) :
    recordsBytes (a ++ b) = recordsBytes a ++ recordsBytes b := List.flatMap_append

theorem take_bytesAt (b : List Byte) (o n k : Nat) : (bytesAt b o n).take k = bytesAt b o (min k n) :=
  List.take_take

theorem drop_bytesAt (b : List Byte) (o n k : Nat) : (bytesAt b o n).drop k = bytesAt b (o + k) (n - k) := by
  change ((b.drop o).take n).drop k = (b.drop (o + k)).take (n - k)
  rw [List.drop_take, List.drop_drop]

end Sys2Proof

namespace Sys2Proof.Machine

/-! ## The records of one payload -/

theorem chunkCount_eq (len : Nat) : chunkCount len = (len + 16383) / 16384 := rfl

theorem length_sourceRecords (first : Int) (payload : List Byte) :
    (sourceRecords first payload).length = chunkCount payload.length :=
  (List.length_map _).trans List.length_range

/-- A payload of one chunk is one record. -/
theorem sourceRecords_one {first : Int} {payload : List Byte} (hpos : 0 < payload.length)
    (hone : payload.length ≤ 16384) : sourceRecords first payload = [(first, payload)] := by
  rw [sourceRecords_cons _ _ hpos, List.take_of_length_le hone, List.drop_of_length_le hone, sourceRecords_nil]

/-- A payload of more than one chunk: a whole chunk, and the records of a rest that is not empty. -/
theorem sourceRecords_more {first : Int} {src : List Byte} {pos len : Nat} (hfits : pos + len ≤ src.length)
    (hmore : 16384 < len) :
    sourceRecords first (bytesAt src pos len) =
      (first, bytesAt src pos 16384) :: sourceRecords (first + 1) (bytesAt src (pos + 16384) (len - 16384)) := by
  rw [sourceRecords_cons _ _ (by rw [length_bytesAt hfits]; omega), take_bytesAt, drop_bytesAt,
    min_eq_left (by omega)]

/-! ## CPR.ENCODE's loop -/

theorem containerFits_iff {slen csize : Nat} : containerFits slen csize = true ↔ slen + (8 + csize) ≤ 2 ^ 32 + 7 :=
  decide_eq_true_iff.trans (Nat.add_assoc slen 8 csize ▸ Iff.rfl)

/-- The state after one record of `c` payload bytes `payload` (R105, R110). -/
def State.emitted (s : State) (c : Nat) (payload : List Byte) : State :=
  { s with
    csize := c, io := s.io.drop 5, sink := s.sink.writeBytes s.slen (chunkBytes s.bank payload),
    slen := s.slen + (8 + c), pos := s.pos + c, rem := s.rem - c }

/-- The state after all the records of the bound payload, `records`, one or more (R104, R111, R113). -/
def State.encoded (s : State) (records : List (Int × List Byte)) : State :=
  { s with
    bank := s.bank + ((records.length - 1 : Nat) : Int), csize := s.rem - 16384 * (records.length - 1), rem := 0,
    pos := s.pos + s.rem, io := s.io.drop (5 * records.length),
    sink := s.sink.writeBytes s.slen (recordsBytes records), slen := s.slen + (recordsBytes records).length }

/-- One record is the whole of it when the payload is one chunk. -/
theorem State.encoded_one {s : State} {payload : List Byte} (hlen : payload.length = s.rem) :
    s.encoded [(s.bank, payload)] = s.emitted s.rem payload := by
  delta State.encoded State.emitted
  simp [recordsBytes_cons, recordsBytes_nil, hlen]

/-- One record and the advance of BANK, then the records of the rest (R111). -/
theorem State.encoded_cons {s : State} {payload : List Byte} {records : List (Int × List Byte)}
    (hlen : payload.length = 16384) (hrem : 16384 ≤ s.rem) (hmore : 0 < records.length) :
    (s.emitted 16384 payload).bankNext.encoded records = s.encoded ((s.bank, payload) :: records) := by
  have hbank : s.bank + 1 + ((records.length - 1 : Nat) : Int) = s.bank + (records.length : Int) := by omega
  have hcsize : s.rem - 16384 - 16384 * (records.length - 1) = s.rem - 16384 * records.length := by omega
  have hpos : s.pos + 16384 + (s.rem - 16384) = s.pos + s.rem := by omega
  delta State.encoded State.emitted State.bankNext
  simp only [recordsBytes_cons, Memory.writeBytes_append, List.length_append, length_chunkBytes, hlen,
    List.length_cons, Nat.add_sub_cancel, hbank, hcsize, hpos, List.drop_drop, Nat.mul_add, Nat.mul_one,
    Nat.add_comm 5, Nat.add_assoc]

/-- CHUNK.EMIT on a chunk of `c` bytes, every test passed and every primitive call answered. -/
theorem emitChunk_emitted {s : State} {src : Source} {c : Nat} (hlive : s.phase ≠ .faulted) (hio : s.ioOk 5)
    (hsrc : s.source = some src) (hc : min 16384 s.rem = c) (hread : s.pos + c ≤ src.length)
    (hbank : bankInRange s.bank = true) (hfits : s.slen + (8 + c) ≤ 2 ^ 32 + 7) :
    emitChunk s = .next (s.emitted c (bytesAt src s.pos c)) := by
  subst hc
  exact emitChunk_ok hlive hio hsrc hbank (containerFits_iff.mpr hfits) hread

theorem encodeLoop_succ (fuel : Nat) (s : State) :
    encodeLoop (fuel + 1) s =
      if s.rem = 0 then .next s
      else andThen (emitChunk s) fun s => if s.rem = 0 then .next s else encodeLoop fuel s.bankNext := rfl

/-- CPR.ENCODE's loop appends the records of the bytes from POS on, as many as REM says. -/
theorem encodeLoop_ok {src : Source} (fuel : Nat) {s : State} {records : List (Int × List Byte)}
    (hfuel : chunkCount s.rem = fuel + 1) (hlive : s.phase ≠ .faulted) (hsrc : s.source = some src)
    (hread : s.pos + s.rem ≤ src.length) (hrecords : sourceRecords s.bank (bytesAt src s.pos s.rem) = records)
    (hrange : ∀ r ∈ records, bankInRange r.1 = true)
    (hfits : s.slen + (recordsBytes records).length ≤ 2 ^ 32 + 7) (hio : s.ioOk (5 * records.length)) :
    encodeLoop (fuel + 1) s = .next (s.encoded records) := by
  induction fuel generalizing s records with
  | zero =>
    have hcount : (s.rem + 16383) / 16384 = 1 := hfuel
    have hlen := length_bytesAt hread
    rw [sourceRecords_one (by omega) (by omega)] at hrecords
    subst hrecords
    have hbank := hrange _ (List.mem_singleton_self _)
    rw [recordsBytes_cons, List.length_append, length_chunkBytes, hlen] at hfits
    rw [encodeLoop_succ, if_neg (by omega),
      emitChunk_emitted hlive hio hsrc (min_eq_right (by omega)) hread hbank (by omega),
      andThen_live (by exact hlive), if_pos (by exact Nat.sub_self _), State.encoded_one hlen]
  | succ fuel ih =>
    have hcount : (s.rem + 16383) / 16384 = fuel + 2 := hfuel
    have hrest : chunkCount (s.rem - 16384) = fuel + 1 := by
      rw [chunkCount_eq]
      omega
    have hlen : (bytesAt src s.pos 16384).length = 16384 := length_bytesAt (by omega)
    have hreadRest : s.pos + 16384 + (s.rem - 16384) ≤ src.length := by omega
    rw [sourceRecords_more hread (by omega)] at hrecords
    subst hrecords
    have hmore : 0 < (sourceRecords (s.bank + 1) (bytesAt src (s.pos + 16384) (s.rem - 16384))).length := by
      rw [length_sourceRecords, length_bytesAt hreadRest, hrest]
      omega
    obtain ⟨hbank, hrangeRest⟩ := List.forall_mem_cons.mp hrange
    rw [recordsBytes_cons, List.length_append, length_chunkBytes, hlen] at hfits
    rw [List.length_cons, Nat.mul_succ, Nat.add_comm] at hio
    rw [encodeLoop_succ, if_neg (by omega),
      emitChunk_emitted hlive (State.ioOk_mono hio (by omega)) hsrc (min_eq_left (by omega)) (by omega) hbank
        (by omega),
      andThen_live (by exact hlive), if_neg (by exact Nat.sub_ne_zero_of_lt (by omega)),
      ih (s := (s.emitted 16384 (bytesAt src s.pos 16384)).bankNext) hrest hlive hsrc hreadRest rfl hrangeRest
        (by exact Nat.le_trans (Nat.add_assoc _ _ _).le hfits) (State.ioOk_drop hio rfl),
      ← State.encoded_cons hlen (by omega) hmore]
    rfl

end Sys2Proof.Machine
end

section
/-! SUPPORT. The reference container of a run (44_run_control.md R129) and the run that makes it: the reference's
numbering source by source, CPR.ENCODE and CONVERT on an open container, and the obligation O29. -/

namespace Sys2Proof

open Machine (sourceRecords)

/-! ## The reference function (R129) -/

theorem payloadsOf_cons_eq (src : Source) (rest : List Source) :
    payloadsOf (src :: rest) = (payloadOf src).bind fun p => (payloadsOf rest).map (p :: ·) := by
  have hcons : payloadsOf (src :: rest) =
      match payloadOf src, payloadsOf rest with | some p, some ps => some (p :: ps) | _, _ => none := rfl
  rw [hcons]
  cases payloadOf src with
  | none => rfl
  | some p => cases payloadsOf rest <;> rfl

theorem payloadsOf_cons {src : Source} {rest : List Source} {payloads : List (List Byte)}
    (h : payloadsOf (src :: rest) = some payloads) :
    ∃ p ps, payloadOf src = some p ∧ payloadsOf rest = some ps ∧ p :: ps = payloads := by
  rw [payloadsOf_cons_eq] at h
  obtain ⟨p, hp, hmap⟩ := Option.bind_eq_some_iff.mp h
  obtain ⟨ps, hps, hpayloads⟩ := Option.map_eq_some_iff.mp hmap
  exact ⟨p, ps, hp, hps, hpayloads⟩

theorem payloadsOf_of_cons {src : Source} {rest : List Source} {p : List Byte} {ps : List (List Byte)}
    (hp : payloadOf src = some p) (hps : payloadsOf rest = some ps) : payloadsOf (src :: rest) = some (p :: ps) := by
  rw [payloadsOf_cons_eq, hp, hps]
  rfl

theorem container_eq_ite {sources : List Source} {payloads : List (List Byte)}
    (hpay : payloadsOf sources = some payloads) (banks : List Int) :
    container sources banks =
      if (recordsOf (-1) banks payloads).all (fun r => bankInRange r.1) = true ∧
          4 + (recordsBytes (recordsOf (-1) banks payloads)).length ≤ 2 ^ 32 - 1 then
        some (finalContainer (recordsOf (-1) banks payloads))
      else none := by
  delta container
  rw [hpay]

theorem container_eq_none {sources : List Source} (hpay : payloadsOf sources = none) (banks : List Int) :
    container sources banks = none := by
  delta container
  rw [hpay]

/-- What the `require`s of the reference say when it gives a container. -/
theorem records_of_container {sources : List Source} {banks : List Int} {K : List Byte}
    (h : container sources banks = some K) :
    ∃ payloads, payloadsOf sources = some payloads ∧
      (∀ r ∈ recordsOf (-1) banks payloads, bankInRange r.1 = true) ∧
      4 + (recordsBytes (recordsOf (-1) banks payloads)).length ≤ 2 ^ 32 - 1 ∧
      K = finalContainer (recordsOf (-1) banks payloads) := by
  cases hpay : payloadsOf sources with
  | none =>
    rw [container_eq_none hpay] at h
    cases h
  | some payloads =>
    rw [container_eq_ite hpay, Option.ite_none_right_eq_some, List.all_eq_true, Option.some.injEq] at h
    obtain ⟨⟨hrange, hsize⟩, hK⟩ := h
    exact ⟨payloads, rfl, hrange, hsize, hK.symm⟩

/-- The container of a run whose payloads and records are known. -/
theorem container_of_records {sources : List Source} {banks : List Int} {payloads : List (List Byte)}
    {records : List (Int × List Byte)} (hpay : payloadsOf sources = some payloads)
    (hrecords : recordsOf (-1) banks payloads = records) (hrange : ∀ r ∈ records, bankInRange r.1 = true)
    (hsize : 4 + (recordsBytes records).length ≤ 2 ^ 32 - 1) :
    container sources banks = some (finalContainer records) := by
  rw [container_eq_ite hpay, hrecords, if_pos ⟨List.all_eq_true.mpr hrange, hsize⟩]

/-! ## The reference's numbering, source by source -/

theorem decideBank_eq (bank : Int) (queue : List Int) :
    decideBank bank queue = (queue.headD (bank + 1), queue.tail) := by
  cases queue <;> rfl

theorem pieces_succ {payload : List Byte} (h : payload ≠ []) (fuel : Nat) :
    pieces (fuel + 1) payload = payload.take 16384 :: pieces fuel (payload.drop 16384) := if_neg h

/-- Numbered pieces are the records of the payload (R93, R106). -/
theorem numberFrom_pieces {fuel : Nat} {payload : List Byte} (hfuel : payload.length ≤ fuel) (first : Int) :
    numberFrom first (pieces fuel payload) = sourceRecords first payload := by
  induction fuel generalizing first payload with
  | zero =>
    rw [List.length_eq_zero_iff.mp (Nat.le_zero.mp hfuel)]
    rfl
  | succ fuel ih =>
    by_cases hempty : payload = []
    · rw [hempty]
      rfl
    · have hpos := List.length_pos_iff.mpr hempty
      have hrest : (payload.drop 16384).length ≤ fuel := by
        rw [List.length_drop]
        omega
      rw [pieces_succ hempty, Machine.sourceRecords_cons _ _ hpos, ← ih hrest]
      rfl

theorem length_numberFrom (first : Int) (parts : List (List Byte)) :
    (numberFrom first parts).length = parts.length := by
  induction parts generalizing first with
  | nil => rfl
  | cons p ps ih => exact congrArg (· + 1) (ih (first + 1))

theorem numberFrom_piecesOf (first : Int) (payload : List Byte) :
    numberFrom first (piecesOf payload) = sourceRecords first payload := numberFrom_pieces (Nat.le_refl _) first

theorem length_piecesOf (payload : List Byte) : (piecesOf payload).length = chunkCount payload.length := by
  rw [← length_numberFrom 0, numberFrom_piecesOf, Machine.length_sourceRecords]

/-- BANK and QUEUE after a source with this payload (R92, R93, R95). -/
def numberingAfter (bank : Int) (queue : List Int) (payload : List Byte) : Int × List Int :=
  if payload = [] then (bank, queue)
  else (queue.headD (bank + 1) + ((chunkCount payload.length - 1 : Nat) : Int), queue.tail)

theorem numberingAfter_empty (bank : Int) (queue : List Int) : numberingAfter bank queue [] = (bank, queue) :=
  if_pos rfl

theorem numberingAfter_nonempty {payload : List Byte} (h : payload ≠ []) (bank : Int) (queue : List Int) :
    numberingAfter bank queue payload =
      (queue.headD (bank + 1) + ((chunkCount payload.length - 1 : Nat) : Int), queue.tail) := if_neg h

theorem recordsOf_empty (bank : Int) (queue : List Int) (payloads : List (List Byte)) :
    recordsOf bank queue ([] :: payloads) = recordsOf bank queue payloads := if_pos rfl

theorem recordsOf_nonempty {payload : List Byte} (h : payload ≠ []) (bank : Int) (queue : List Int)
    (payloads : List (List Byte)) :
    recordsOf bank queue (payload :: payloads) =
      sourceRecords (queue.headD (bank + 1)) payload ++
        recordsOf (numberingAfter bank queue payload).1 (numberingAfter bank queue payload).2 payloads := by
  have hcons : recordsOf bank queue (payload :: payloads) =
      numberFrom (decideBank bank queue).1 (piecesOf payload) ++
        recordsOf ((decideBank bank queue).1 + ((piecesOf payload).length - 1 : Nat)) (decideBank bank queue).2
          payloads := if_neg h
  rw [hcons, decideBank_eq, numberFrom_piecesOf, length_piecesOf, numberingAfter_nonempty h]

/-- The records of one source with a payload. -/
theorem recordsOf_singleton {payload : List Byte} (h : payload ≠ []) (bank : Int) (queue : List Int) :
    recordsOf bank queue [payload] = sourceRecords (queue.headD (bank + 1)) payload := by
  rw [recordsOf_nonempty h]
  exact List.append_nil _

/-- The records of the first source, and those of the rest under the numbering it leaves. -/
theorem recordsOf_cons (bank : Int) (queue : List Int) (payload : List Byte) (payloads : List (List Byte)) :
    recordsOf bank queue (payload :: payloads) =
      recordsOf bank queue [payload] ++
        recordsOf (numberingAfter bank queue payload).1 (numberingAfter bank queue payload).2 payloads := by
  by_cases h : payload = []
  · rw [h, numberingAfter_empty, recordsOf_empty, recordsOf_empty]
    rfl
  · rw [recordsOf_singleton h, recordsOf_nonempty h]

theorem containerBytes_append (len : BitVec 32) (a b : List (Int × List Byte)) :
    containerBytes len (a ++ b) = containerBytes len a ++ recordsBytes b := by
  change preambleBytes len ++ recordsBytes (a ++ b) = preambleBytes len ++ recordsBytes a ++ recordsBytes b
  rw [recordsBytes_append, List.append_assoc]

end Sys2Proof

namespace Sys2Proof.Machine

/-! ## CPR.ENCODE of a payload that is not empty (R100 to R113) -/

/-- A source with a payload takes its number (R103, R92). -/
theorem State.startEncode_takes {s : State} (hpos : 0 < s.paylen) :
    s.startEncode = { s with rem := s.paylen, bank := firstBank s, queue := s.queue.tail } := by
  rw [State.startEncode_eq, if_pos (by simp [hpos])]
  exact State.bankFirst_eq _

/-- CPR.ENCODE appends the records of the payload, every test passed and every primitive call answered. -/
theorem execCprEncode_records {s : State} {src : Source} {records : List (Int × List Byte)} (hphase : s.phase = .opened)
    (hvalid : s.srcValid = true) (hsrc : s.source = some src) (hn : s.n = src.length)
    (hread : s.pos + s.paylen ≤ src.length) (hpos : 0 < s.paylen)
    (hrecords : sourceRecords (firstBank s) (bytesAt src s.pos s.paylen) = records)
    (hrange : ∀ r ∈ records, bankInRange r.1 = true)
    (hfits : s.slen + (recordsBytes records).length ≤ 2 ^ 32 + 7) (hio : s.ioOk (5 * records.length)) :
    execCprEncode s = .next { State.encoded
      { s with rem := s.paylen, bank := firstBank s, queue := s.queue.tail } records with srcValid := false } := by
  have hlive : s.phase ≠ .faulted := by simp [hphase]
  obtain ⟨fuel, hfuel⟩ := Nat.exists_eq_succ_of_ne_zero (chunkCount_pos hpos).ne'
  rw [execCprEncode_fits hphase hvalid (hn ▸ hread), State.startEncode_takes hpos, hfuel,
    encodeLoop_ok fuel (src := src) (records := records) (by exact hfuel) (by exact hlive) (by exact hsrc)
      (by exact hread) (by exact hrecords) hrange (by exact hfits) (by exact hio),
    andThen_live (by exact hlive)]

/-! ## CPR.ENCODE and CONVERT on an open container -/

theorem OpenContainer.quiet {records : List (Int × List Byte)} {s : State} (h : OpenContainer records s) :
    s.ioQuiet := by
  obtain ⟨-, -, -, -, -, hio⟩ := h
  exact hio

/-- A probe leaves the container alone (R87). -/
theorem OpenContainer.probed {records : List (Int × List Byte)} {src : Source} {s t : State}
    (h : OpenContainer records s) (hdone : ProbeDone src s t) : OpenContainer records t := by
  obtain ⟨hphase, hfault, hsink, hslen, hparam, hio⟩ := h
  have hioNext := hdone.ioQuiet hio
  obtain ⟨hprobed, -⟩ := hdone
  obtain ⟨-, -, -, tphase, tfault, -, tslen, tsink, -, tparams⟩ := hprobed.fields
  exact ⟨tphase.trans hphase, tfault.trans hfault, tsink ▸ hsink, tslen.trans hslen, tparams ▸ hparam, hioNext⟩

/-- CPR.ENCODE extends an open container by the reference's records of the bound payload, and leaves the reference's
numbering. -/
theorem execCprEncode_container {records : List (Int × List Byte)} {s : State} {src : Source} {payload : List Byte}
    (h : OpenContainer records s) (hvalid : s.srcValid = true) (hsrc : s.source = some src) (hn : s.n = src.length)
    (hread : s.pos + s.paylen ≤ src.length) (hpay : bytesAt src s.pos s.paylen = payload)
    (hrange : ∀ r ∈ recordsOf s.bank s.queue [payload], bankInRange r.1 = true)
    (hfits : (containerBytes 0 (records ++ recordsOf s.bank s.queue [payload])).length ≤ 2 ^ 32 + 7) :
    ∃ t, execCprEncode s = .next t ∧ OpenContainer (records ++ recordsOf s.bank s.queue [payload]) t ∧
      (t.bank, t.queue) = numberingAfter s.bank s.queue payload := by
  obtain ⟨hphase, hfault, hsink, hslen, hparam, hio⟩ := h
  have hlen : payload.length = s.paylen := by rw [← hpay, length_bytesAt hread]
  by_cases hempty : payload = []
  · have hzero : s.paylen = 0 := by rw [← hlen, hempty, List.length_nil]
    rw [execCprEncode_empty hphase hvalid hzero (by omega), State.startEncode_keeps hzero hparam, hempty,
      numberingAfter_empty, recordsOf_empty]
    refine ⟨_, rfl, ?_, rfl⟩
    rw [show recordsOf s.bank s.queue [] = [] from rfl, List.append_nil]
    exact ⟨hphase, hfault, hsink, hslen, hparam, hio⟩
  · have hpos : 0 < s.paylen := by
      rw [← hlen]
      exact List.length_pos_iff.mpr hempty
    rw [recordsOf_singleton hempty] at hrange hfits ⊢
    rw [containerBytes_append, List.length_append, ← hslen] at hfits
    rw [execCprEncode_records hphase hvalid hsrc hn hread hpos (congrArg _ hpay) hrange hfits (State.ioQuiet_ok hio _)]
    refine ⟨_, rfl, ⟨hphase, hfault, ?_, ?_, hparam, State.ioQuiet_drop hio rfl⟩, ?_⟩
    · rw [containerBytes_append]
      exact hslen ▸ hsink.append
    · rw [containerBytes_append, List.length_append, ← hslen]
      rfl
    · rw [numberingAfter_nonempty hempty, ← length_sourceRecords (firstBank s)]
      rfl

theorem execConvert_eq (src : Source) (s : State) :
    execConvert src s = andThen (execHdrProbe src s) execCprEncode := rfl

/-- CONVERT extends an open container by the reference's records of the source. -/
theorem execConvert_container {records : List (Int × List Byte)} {s : State} {src : Source} {payload : List Byte}
    (h : OpenContainer records s) (hlen : src.length < 2 ^ 32) (hpay : payloadOf src = some payload)
    (hrange : ∀ r ∈ recordsOf s.bank s.queue [payload], bankInRange r.1 = true)
    (hfits : (containerBytes 0 (records ++ recordsOf s.bank s.queue [payload])).length ≤ 2 ^ 32 + 7) :
    ∃ t, execConvert src s = .next t ∧ OpenContainer (records ++ recordsOf s.bank s.queue [payload]) t ∧
      (t.bank, t.queue) = numberingAfter s.bank s.queue payload := by
  obtain ⟨u, hprobe, hdone⟩ := execHdrProbe_done h.live (State.ioQuiet_ok h.quiet 2) hlen
  have hu := h.probed hdone
  obtain ⟨hprobed, hsrc, hn, hvalid, hpoints, -⟩ := hdone
  obtain ⟨hbank, hqueue, -⟩ := hprobed.fields
  obtain ⟨hread, hbytes⟩ := hpoints payload hpay
  rw [execConvert_eq, hprobe, andThen_live hu.live]
  rw [← hbank, ← hqueue] at hrange hfits ⊢
  exact execCprEncode_container hu hvalid hsrc hn hread hbytes hrange hfits

/-! ## RUN (R125, R129) -/

/-- RUN's loop extends an open container by the reference's records of all the sources. -/
theorem runSources_container (sources : List Source) {records : List (Int × List Byte)} {s : State}
    {payloads : List (List Byte)} (h : OpenContainer records s) (hlen : ∀ src ∈ sources, src.length < 2 ^ 32)
    (hpay : payloadsOf sources = some payloads)
    (hrange : ∀ r ∈ recordsOf s.bank s.queue payloads, bankInRange r.1 = true)
    (hfits : (containerBytes 0 (records ++ recordsOf s.bank s.queue payloads)).length ≤ 2 ^ 32 + 7) :
    ∃ t, runSources true sources s = .next t ∧ OpenContainer (records ++ recordsOf s.bank s.queue payloads) t := by
  induction sources generalizing records s payloads with
  | nil =>
    cases hpay
    exact ⟨s, rfl, (List.append_nil records).symm ▸ h⟩
  | cons src rest ih =>
    obtain ⟨hlenSrc, hlenRest⟩ := List.forall_mem_cons.mp hlen
    obtain ⟨p, ps, hp, hps, rfl⟩ := payloadsOf_cons hpay
    rw [recordsOf_cons] at hrange hfits ⊢
    rw [← List.append_assoc] at hfits ⊢
    obtain ⟨hrangeSrc, hrangeRest⟩ := List.forall_mem_append.mp hrange
    obtain ⟨u, hconvert, hu, hnumbering⟩ := execConvert_container h hlenSrc hp hrangeSrc (by
      rw [containerBytes_append, List.length_append] at hfits
      omega)
    rw [← hnumbering] at hrangeRest hfits ⊢
    obtain ⟨t, hrest, ht⟩ := ih hu hlenRest hps hrangeRest hfits
    refine ⟨t, ?_, ht⟩
    rw [runSources_cons, if_pos rfl, hconvert, andThen_live hu.live, hrest]

/-- CPR.OPEN takes no numbering decision (R97). -/
theorem execCprOpen_numbering {s t : State} (hclosed : s.phase = .closed) (hio : s.ioQuiet)
    (h : execCprOpen false s = .next t) : t.bank = s.bank ∧ t.queue = s.queue := by
  rw [execCprOpen_ok hclosed (State.ioQuiet_ok hio 3)] at h
  cases h
  exact ⟨rfl, rfl⟩

/-- Settles O29: CPR.OPEN opens the container without a record, the sources add the reference's records, and
CPR.FINALIZE patches the length field. -/
theorem runMakesTheReferenceContainer : Obligations.RunMakesTheReferenceContainer := by
  intro sources banks details s K hreset hparam hio hlen hdepth hcontainer
  obtain ⟨payloads, hpay, hrange, hsize, rfl⟩ := records_of_container hcontainer
  have hbankReset := hreset.bank
  obtain ⟨u, hrunOpen, hu⟩ := execCprOpen_container (s := { s with details := details, queue := banks.getD [] })
    hreset.phase hreset.fault hreset.slen hparam hio
  obtain ⟨hbank, hqueue⟩ := execCprOpen_numbering (by exact hreset.phase) (by exact hio) hrunOpen
  have hrecords : recordsOf u.bank u.queue payloads = recordsOf (-1) (banks.getD []) payloads := by
    rw [hbank, hqueue]
    exact congrArg (recordsOf · _ _) hbankReset
  rw [← hrecords] at hrange hsize ⊢
  obtain ⟨v, hrunSources, hv⟩ := runSources_container sources hu hlen hpay hrange (by
    rw [List.nil_append, length_containerBytes]
    omega)
  obtain ⟨t, hrunFinalize, hphase, hfault, hslen, hsink⟩ := execCprFinalize_container hv
  refine ⟨t, ?_, hsink, hslen, hphase, hfault⟩
  rw [exec_run_closed hreset.phase hreset.queue (queueFits_iff.mpr hdepth), if_pos rfl, hrunOpen,
    andThen_live hu.live, hrunSources, andThen_live hv.live, if_pos rfl, hrunFinalize]

end Sys2Proof.Machine
end

section
/-! SUPPORT. Runs of sources with one or two chunks (44_run_control.md R134, R135): what the reference numbers them, and
the obligations O33 and O34. -/

namespace Sys2Proof

open Machine (sourceRecords_cons sourceRecords_one)

/-- A source of one chunk is one record under the number it takes (R92). -/
theorem recordsOf_oneChunk {payload : List Byte} (hpos : 0 < payload.length) (hone : payload.length ≤ 16384)
    (bank : Int) (queue : List Int) (payloads : List (List Byte)) :
    recordsOf bank queue (payload :: payloads) =
      (queue.headD (bank + 1), payload) :: recordsOf (queue.headD (bank + 1)) queue.tail payloads := by
  have hne : payload ≠ [] := List.length_pos_iff.mp hpos
  have hcount : chunkCount payload.length = 1 := by
    rw [Machine.chunkCount_eq]
    omega
  rw [recordsOf_nonempty hne, sourceRecords_one hpos hone, numberingAfter_nonempty hne, hcount]
  simp

/-- A source of two chunks is two records, the second numbered one more (R93). -/
theorem recordsOf_twoChunks {payload : List Byte} (hmore : 16384 < payload.length) (htwo : payload.length ≤ 32768)
    (bank : Int) (queue : List Int) (payloads : List (List Byte)) :
    recordsOf bank queue (payload :: payloads) =
      (queue.headD (bank + 1), payload.take 16384) :: (queue.headD (bank + 1) + 1, payload.drop 16384) ::
        recordsOf (queue.headD (bank + 1) + 1) queue.tail payloads := by
  have hne : payload ≠ [] := List.length_pos_iff.mp (by omega)
  have hcount : chunkCount payload.length = 2 := by
    rw [Machine.chunkCount_eq]
    omega
  rw [recordsOf_nonempty hne, sourceRecords_cons _ _ (by omega),
    sourceRecords_one (by rw [List.length_drop]; omega) (by rw [List.length_drop]; omega),
    numberingAfter_nonempty hne, hcount]
  simp

theorem bankInRange_iff {bank : Int} : bankInRange bank = true ↔ 0 ≤ bank ∧ bank ≤ 99 :=
  (Bool.and_eq_true_iff).trans (and_congr decide_eq_true_iff decide_eq_true_iff)

theorem length_recordsBytes_nil : (recordsBytes []).length = 0 := rfl

theorem length_recordsBytes_cons (bank : Int) (payload : List Byte) (records : List (Int × List Byte)) :
    (recordsBytes ((bank, payload) :: records)).length = 8 + payload.length + (recordsBytes records).length := by
  rw [recordsBytes_cons, List.length_append, Machine.length_chunkBytes]

end Sys2Proof

namespace Sys2Proof.Machine

/-- The reference container of a run, the records of its payloads known: what RUN leaves (R129). -/
theorem exec_run_records {sources : List Source} {banks : Option (List Int)} {payloads : List (List Byte)}
    {records : List (Int × List Byte)} {s : State} (details : Bool) (hreset : JustReset s)
    (hparam : s.params.zeroSrcConsumes = false) (hio : s.ioQuiet) (hlen : ∀ src ∈ sources, src.length < 2 ^ 32)
    (hdepth : ∀ d, s.params.qdepth = some d → (banks.getD []).length ≤ d) (hpay : payloadsOf sources = some payloads)
    (hrecords : recordsOf (-1) (banks.getD []) payloads = records) (hrange : ∀ r ∈ records, bankInRange r.1 = true)
    (hsize : 4 + (recordsBytes records).length ≤ 2 ^ 32 - 1) :
    ∃ t, exec (.run sources banks details true false) s = .next t ∧ t.phase = .final ∧ t.fault = 0 ∧
      Holds t.sink (finalContainer records) ∧ t.slen = (finalContainer records).length := by
  obtain ⟨t, hrun, hsink, hslen, hphase, hfault⟩ := runMakesTheReferenceContainer sources banks details s _ hreset
    hparam hio hlen hdepth (container_of_records hpay hrecords hrange hsize)
  exact ⟨t, hrun, hphase, hfault, hsink, hslen⟩

/-- Settles O33: each source is one chunk and takes its number from the list. -/
theorem explicitListNumbersTheSources : Obligations.ExplicitListNumbersTheSources := by
  intro a b p q details s hreset hparam hio hlenA hlenB hdepth hpayA hpayB hp hpOne hq hqOne
  have hrecords : recordsOf (-1) [5, 9] [p, q] = [(5, p), (9, q)] := by
    rw [recordsOf_oneChunk hp hpOne, recordsOf_oneChunk hq hqOne]
    rfl
  obtain ⟨t, hrun, hphase, hfault, hsink, -⟩ := exec_run_records (sources := [a, b]) (banks := some [5, 9]) details
    hreset hparam hio (List.forall_mem_cons.mpr ⟨hlenA, List.forall_mem_singleton.mpr hlenB⟩) hdepth
    (payloadsOf_of_cons hpayA (payloadsOf_of_cons hpayB rfl)) hrecords (by simp [bankInRange_iff])
    (by rw [length_recordsBytes_cons, length_recordsBytes_cons, length_recordsBytes_nil]; omega)
  exact ⟨t, hrun, hphase, hfault, hsink⟩

/-- Settles O34: the first chunk takes its number from the list, the second the next one. -/
theorem counterContinuesFromTheList : Obligations.CounterContinuesFromTheList := by
  intro a p details s hreset hparam hio hlen hdepth hpay hmore htwo
  have hrecords : recordsOf (-1) [5] [p] = [(5, p.take 16384), (6, p.drop 16384)] := by
    rw [recordsOf_twoChunks hmore htwo]
    rfl
  obtain ⟨t, hrun, hphase, hfault, hsink, -⟩ := exec_run_records (sources := [a]) (banks := some [5]) details
    hreset hparam hio (List.forall_mem_singleton.mpr hlen) hdepth (payloadsOf_of_cons hpay rfl) hrecords
    (by simp [bankInRange_iff])
    (by
      rw [length_recordsBytes_cons, length_recordsBytes_cons, length_recordsBytes_nil, List.length_take,
        List.length_drop]
      omega)
  exact ⟨t, hrun, hphase, hfault, hsink⟩

end Sys2Proof.Machine
end

section
/-! SUPPORT. Reading a container back (30_encoding.md R58, R59, R63): each record's decoder on the bytes of its record,
and the scan of a finalised container. -/

namespace Sys2Proof

/-! ## The preamble (R58) -/

theorem decodePreamble_preambleBytes (len : BitVec 32) (rest : List Byte) :
    decodePreamble (preambleBytes len ++ rest) = .ok (len, rest) := by
  have hlong : ¬ (preambleBytes len ++ rest).length < 12 := by
    rw [List.length_append, Machine.length_preambleBytes]
    omega
  have hmagic : ¬ bytesAt (preambleBytes len ++ rest) 0 4 ≠ tagRiff := not_not_intro rfl
  have hformat : ¬ bytesAt (preambleBytes len ++ rest) 8 4 ≠ tagAms := not_not_intro rfl
  have hfield : le32 (preambleBytes len ++ rest) 4 = len := le32_bytes len
  delta decodePreamble
  rw [if_neg hlong, if_neg hmagic, if_neg hformat, hfield]
  rfl

/-! ## One chunk record (R59, R60) -/

theorem digit_decodes : ∀ d : Fin 10, isDigit (digit d) = true ∧ (digit d).toNat - 0x30 = d.val := by decide

theorem isDigit_digit {d : Nat} (h : d < 10) : isDigit (digit d) = true := (digit_decodes ⟨d, h⟩).1

theorem toNat_digit {d : Nat} (h : d < 10) : (digit d).toNat - 0x30 = d := (digit_decodes ⟨d, h⟩).2

theorem chunkOk_iff {bank : Int} {payload : List Byte} :
    chunkOk bank payload = true ↔ bankInRange bank = true ∧ 1 ≤ payload.length ∧ payload.length ≤ 16384 := by
  delta chunkOk
  simp [bankInRange_iff, and_assoc]

/-- The two digits of a bank number name it (R60). -/
theorem bankOfDigits_digits {bank : Int} (h : bankInRange bank = true) :
    bankOfDigits (digit (bank.toNat / 10)) (digit (bank.toNat % 10)) = bank := by
  obtain ⟨hlo, hhi⟩ := bankInRange_iff.mp h
  delta bankOfDigits
  rw [toNat_digit (by omega), toNat_digit (by omega)]
  omega

/-- The length field of a chunk record (R61). -/
theorem le32_chunkBytes {payload : List Byte} (h : payload.length ≤ 16384) (bank : Int) (rest : List Byte) :
    (le32 (chunkBytes bank payload ++ rest) 4).toNat = payload.length := by
  have hfield : le32 (chunkBytes bank payload ++ rest) 4 = BitVec.ofNat 32 payload.length := le32_bytes _
  rw [hfield, BitVec.toNat_ofNat, Nat.mod_eq_of_lt (show payload.length < 2 ^ 32 by omega)]

theorem drop_chunkBytes (bank : Int) (payload rest : List Byte) :
    (chunkBytes bank payload ++ rest).drop 8 = payload ++ rest := rfl

theorem bytesAt_chunkBytes (bank : Int) (payload rest : List Byte) :
    bytesAt (chunkBytes bank payload ++ rest) 8 payload.length = payload := List.take_left

theorem decodeChunk_chunkBytes {bank : Int} {payload : List Byte} (h : chunkOk bank payload = true)
    (rest : List Byte) : decodeChunk (chunkBytes bank payload ++ rest) = .ok ((bank, payload), rest) := by
  obtain ⟨hbank, hpos, hmax⟩ := chunkOk_iff.mp h
  obtain ⟨hlo, hhi⟩ := bankInRange_iff.mp hbank
  have hlong : ¬ (chunkBytes bank payload ++ rest).length < 8 := by
    rw [List.length_append, Machine.length_chunkBytes]
    omega
  have htag : ¬ bytesAt (chunkBytes bank payload ++ rest) 0 2 ≠ tagCb := not_not_intro rfl
  have htens : byteAt (chunkBytes bank payload ++ rest) 2 = digit (bank.toNat / 10) := rfl
  have hunits : byteAt (chunkBytes bank payload ++ rest) 3 = digit (bank.toNat % 10) := rfl
  have hdigits : ¬ (!(isDigit (digit (bank.toNat / 10)) && isDigit (digit (bank.toNat % 10)))) = true := by
    rw [isDigit_digit (by omega), isDigit_digit (by omega)]
    decide
  have hlength : ¬ (payload.length = 0 ∨ 16384 < payload.length) := by omega
  have hwhole : ¬ (payload ++ rest).length < payload.length := by
    rw [List.length_append]
    omega
  delta decodeChunk
  rw [if_neg hlong, if_neg htag, htens, hunits, if_neg hdigits, bankOfDigits_digits hbank]
  dsimp only
  rw [le32_chunkBytes hmax, if_neg hlength, drop_chunkBytes, if_neg hwhole, bytesAt_chunkBytes, ← List.drop_drop,
    drop_chunkBytes, List.drop_left]

/-! ## Records back to back (R63) -/

theorem scanChunks_record {b rest : List Byte} {record : Int × List Byte} {records : List (Int × List Byte)}
    {fuel : Nat} (hdecode : decodeChunk b = .ok (record, rest)) (hscan : scanChunks fuel rest = .ok records) :
    scanChunks (fuel + 1) b = .ok (record :: records) := by
  cases b with
  | nil => cases hdecode
  | cons x xs =>
    have hcons : scanChunks (fuel + 1) (x :: xs) =
        match decodeChunk (x :: xs) with
        | .error e => .error e
        | .ok (record, rest) =>
          match scanChunks fuel rest with
          | .error e => .error e
          | .ok records => .ok (record :: records) := rfl
    rw [hcons, hdecode]
    dsimp only
    rw [hscan]

theorem scanChunks_recordsBytes {records : List (Int × List Byte)} (hok : Machine.RecordsOk records) {fuel : Nat}
    (hfuel : records.length ≤ fuel) : scanChunks fuel (recordsBytes records) = .ok records := by
  induction records generalizing fuel with
  | nil => cases fuel <;> rfl
  | cons r rs ih =>
    obtain ⟨fuel, rfl⟩ := Nat.exists_eq_add_of_le' (Nat.le_trans (Nat.le_add_left 1 rs.length) hfuel)
    obtain ⟨hr, hrs⟩ := List.forall_mem_cons.mp hok
    exact scanChunks_record (decodeChunk_chunkBytes hr _) (ih hrs (Nat.le_of_succ_le_succ hfuel))

theorem length_le_recordsBytes (records : List (Int × List Byte)) :
    records.length ≤ (recordsBytes records).length := by
  induction records with
  | nil => exact Nat.le_refl 0
  | cons r rs ih =>
    rw [length_recordsBytes_cons, List.length_cons]
    omega

/-- Scanning a finalised container gives its records. -/
theorem scanContainer_finalContainer {records : List (Int × List Byte)} (hok : Machine.RecordsOk records)
    (hsize : 4 + (recordsBytes records).length ≤ 2 ^ 32 - 1) :
    scanContainer (finalContainer records) = .ok records := by
  have hlength : ¬ (BitVec.ofNat 32 (4 + (recordsBytes records).length)).toNat + 8 ≠
      (preambleBytes (BitVec.ofNat 32 (4 + (recordsBytes records).length)) ++ recordsBytes records).length := by
    rw [BitVec.toNat_ofNat, Nat.mod_eq_of_lt (by omega), List.length_append, Machine.length_preambleBytes]
    omega
  delta scanContainer finalContainer containerBytes
  rw [decodePreamble_preambleBytes]
  dsimp only
  rw [if_neg hlength, scanChunks_recordsBytes hok (length_le_recordsBytes records)]

end Sys2Proof
end

section
/-! SUPPORT. The numbers and sizes of a run's records (44_run_control.md R133, R136), and the obligations O31 and
O35. -/

namespace Sys2Proof

open Machine (sourceRecords RecordsOk)

/-! ## Every record the reference numbers is one the block may write (R59, R113) -/

theorem sourceRecords_sizes (first : Int) (payload : List Byte) :
    ∀ r ∈ sourceRecords first payload, 1 ≤ r.2.length ∧ r.2.length ≤ 16384 := by
  intro r hr
  obtain ⟨k, hk, rfl⟩ := List.mem_map.mp hr
  rw [List.mem_range, Machine.chunkCount_eq] at hk
  simp only [List.length_take, List.length_drop, Config.CHUNK_MAX]
  omega

theorem recordsOf_sizes (bank : Int) (queue : List Int) (payloads : List (List Byte)) :
    ∀ r ∈ recordsOf bank queue payloads, 1 ≤ r.2.length ∧ r.2.length ≤ 16384 := by
  induction payloads generalizing bank queue with
  | nil => exact List.forall_mem_nil _
  | cons p ps ih =>
    by_cases hempty : p = []
    · rw [hempty, recordsOf_empty]
      exact ih bank queue
    · rw [recordsOf_nonempty hempty]
      exact List.forall_mem_append.mpr ⟨sourceRecords_sizes _ p, ih _ _⟩

theorem recordsOk_recordsOf {bank : Int} {queue : List Int} {payloads : List (List Byte)}
    (hrange : ∀ r ∈ recordsOf bank queue payloads, bankInRange r.1 = true) :
    RecordsOk (recordsOf bank queue payloads) :=
  fun r hr => chunkOk_iff.mpr ⟨hrange r hr, recordsOf_sizes bank queue payloads r hr⟩

/-! ## Consecutive numbers (R133) -/

/-- The records carry the bank numbers `first`, `first + 1`, …, in order. -/
def Consecutive (first : Int) (records : List (Int × List Byte)) : Prop :=
  records.map (fun r => r.1) = (List.range records.length).map fun k : Nat => first + (k : Int)

theorem Consecutive.append {first : Int} {a b : List (Int × List Byte)} (ha : Consecutive first a)
    (hb : Consecutive (first + (a.length : Int)) b) : Consecutive first (a ++ b) := by
  delta Consecutive at ha hb ⊢
  rw [List.map_append, ha, hb, List.length_append, List.range_add, List.map_append, List.map_map]
  congr 1
  refine List.map_congr_left fun k _ => ?_
  rw [Function.comp_apply, Int.natCast_add, Int.add_assoc]

theorem sourceRecords_consecutive (first : Int) (payload : List Byte) :
    Consecutive first (sourceRecords first payload) := by
  delta Consecutive
  rw [Machine.length_sourceRecords]
  exact List.map_map

/-- Without a list every number is one more than the one before, across sources and over empty ones (R92, R93, R95). -/
theorem recordsOf_consecutive (bank : Int) (payloads : List (List Byte)) :
    Consecutive (bank + 1) (recordsOf bank [] payloads) := by
  induction payloads generalizing bank with
  | nil => rfl
  | cons p ps ih =>
    by_cases hempty : p = []
    · rw [hempty, recordsOf_empty]
      exact ih bank
    · have hcount : 0 < chunkCount p.length := Machine.chunkCount_pos (List.length_pos_iff.mpr hempty)
      have hnext : bank + 1 + (chunkCount p.length : Int) =
          bank + 1 + ((chunkCount p.length - 1 : Nat) : Int) + 1 := by omega
      rw [recordsOf_nonempty hempty, numberingAfter_nonempty hempty]
      refine (sourceRecords_consecutive (bank + 1) p).append ?_
      rw [Machine.length_sourceRecords, hnext]
      exact ih _

/-- The four bytes of a finalised container's length field (R58, R118). -/
theorem lengthField_finalContainer (records : List (Int × List Byte)) :
    ((finalContainer records).drop 4).take 4 = le32Bytes (BitVec.ofNat 32 (4 + (recordsBytes records).length)) := rfl

theorem length_finalContainer (records : List (Int × List Byte)) :
    (finalContainer records).length = 12 + (recordsBytes records).length := Machine.length_containerBytes _ _

end Sys2Proof

namespace Sys2Proof.Machine

/-- Settles O31: the records of the reference container are numbered from 0, and a scan of the container gives them. -/
theorem runWithoutListNumbersFromZero : Obligations.RunWithoutListNumbersFromZero := by
  intro sources details s K hreset hparam hio hlen hcontainer
  obtain ⟨t, hrun, hsink, -⟩ := runMakesTheReferenceContainer sources none details s K hreset hparam hio hlen
    (fun _ _ => Nat.zero_le _) hcontainer
  obtain ⟨payloads, -, hrange, hsize, rfl⟩ := records_of_container hcontainer
  refine ⟨t, _, hrun, hsink, scanContainer_finalContainer (recordsOk_recordsOf hrange) hsize, ?_⟩
  exact Eq.trans (recordsOf_consecutive (-1) payloads) (List.map_congr_left fun k _ => by omega)

/-- Settles O35: neither source has a header, the first is one chunk and the second two. -/
theorem twoSourceRunMakesThreeRecords : Obligations.TwoSourceRunMakesThreeRecords := by
  intro a b details s hreset hparam hio hlenA hlenB hnoHeader
  have hpayA : payloadOf a = some a := payloadOf_noHeader fun h => absurd h.1 (by omega)
  have hpayB : payloadOf b = some b := payloadOf_noHeader fun h => absurd h.2 (by simp [hnoHeader])
  obtain ⟨records, hthree⟩ : ∃ records : List (Int × List Byte),
    records = [(0, a), (1, b.take 16384), (2, b.drop 16384)] := ⟨_, rfl⟩
  have hrecords : recordsOf (-1) [] [a, b] = records := by
    rw [hthree, recordsOf_oneChunk (by omega) (by omega), recordsOf_twoChunks (by omega) (by omega)]
    rfl
  have hbytes : (recordsBytes records).length = 20124 := by
    rw [hthree, length_recordsBytes_cons, length_recordsBytes_cons, length_recordsBytes_cons, length_recordsBytes_nil,
      List.length_take, List.length_drop, hlenA, hlenB]
    decide
  have hrange : ∀ r ∈ records, bankInRange r.1 = true := by simp [hthree, bankInRange_iff]
  have hok : RecordsOk records := hrecords ▸ recordsOk_recordsOf (hrecords.symm ▸ hrange)
  have hsize : 4 + (recordsBytes records).length ≤ 2 ^ 32 - 1 := by omega
  have hlength : (finalContainer records).length = 20136 := by rw [length_finalContainer, hbytes]
  have hfield : ((finalContainer records).drop 4).take 4 = [0xA0, 0x4E, 0, 0] := by
    rw [lengthField_finalContainer, hbytes]
    decide
  obtain ⟨t, hrun, hphase, hfault, hsink, hslen⟩ := exec_run_records (sources := [a, b]) (banks := none) details hreset
    hparam hio (List.forall_mem_cons.mpr ⟨by omega, List.forall_mem_singleton.mpr (by omega)⟩)
    (fun _ _ => Nat.zero_le _) (payloadsOf_of_cons hpayA (payloadsOf_of_cons hpayB rfl)) hrecords hrange hsize
  exact ⟨t, _, hrun, hphase, hfault, hsink, hslen.trans hlength, hlength, hfield,
    hthree ▸ scanContainer_finalContainer hok hsize⟩

end Sys2Proof.Machine
end

section
/-! SUPPORT. The faults of CHUNK.EMIT and CPR.OPEN that are raised before any write (60_exceptions.md R142, R144, R147),
and phase FAULTED (R157): the obligations O16, O17, O24 and O38. -/

namespace Sys2Proof.Machine

/-! ## CHUNK.EMIT's two tests (R108, R109) -/

/-- A bank number outside 0 to 99 is refused before the size is looked at (R108, R154). -/
theorem checkRecord_bankRange {bank : Int} (h : ¬ bankInRange bank = true) (csize : Nat) (s : State)
    (k : State → Result) : checkRecord bank csize s k = raise .bankRange (bankInfo bank) s := if_neg h

/-- A record under a legal bank number is refused when it does not fit the container (R109). -/
theorem checkRecord_overflow {bank : Int} {csize : Nat} {s : State} (hbank : bankInRange bank = true)
    (hfull : ¬ containerFits s.slen csize = true) (k : State → Result) :
    checkRecord bank csize s k = raise .containerOverflow (BitVec.ofNat 32 csize) s :=
  (if_pos hbank).trans (if_neg hfull)

theorem exec_chunkEmit_live {s : State} (h : s.phase ≠ .faulted) : exec .chunkEmit s = emitChunk s :=
  unlessFaulted_live h emitChunk

/-- CSIZE is set before the tests, and the refused record changes nothing else (R105, R144). -/
theorem emitChunk_bankRange {s : State} (h : ¬ bankInRange s.bank = true) :
    emitChunk s = raise .bankRange (bankInfo s.bank) { s with csize := min 16384 s.rem } := by
  delta emitChunk
  exact checkRecord_bankRange h _ _ _

/-- CSIZE is set before the tests, and the refused record changes nothing else (R105, R147). -/
theorem emitChunk_overflow {s : State} (hbank : bankInRange s.bank = true)
    (hfull : ¬ containerFits s.slen (min 16384 s.rem) = true) :
    emitChunk s =
      raise .containerOverflow (BitVec.ofNat 32 (min 16384 s.rem)) { s with csize := min 16384 s.rem } := by
  delta emitChunk
  exact checkRecord_overflow (by exact hbank) (by exact hfull) _

/-- Settles O16: the bank test fails, and FINFO is `bankInfo`, BANK's word where it has one. -/
theorem chunkEmitFaultsOnBankRange : Obligations.ChunkEmitFaultsOnBankRange := by
  intro s hlive hout
  have hbank : ¬ bankInRange s.bank = true := fun hin => absurd (bankInRange_iff.mp hin) (by omega)
  refine ⟨bankInfo s.bank, bankInfo_word, ?_⟩
  rw [exec_chunkEmit_live hlive, emitChunk_bankRange hbank]
  rfl

/-- Settles O17: the bank test passes and the size test fails. -/
theorem chunkEmitFaultsOnOverflow : Obligations.ChunkEmitFaultsOnOverflow := by
  intro s hlive hlow hhigh hlarge
  have hfull : ¬ containerFits s.slen (min 16384 s.rem) = true := fun hfits =>
    absurd (containerFits_iff.mp hfits) (by omega)
  rw [exec_chunkEmit_live hlive, emitChunk_overflow (bankInRange_iff.mpr ⟨hlow, hhigh⟩) hfull]
  rfl

/-! ## CPR.OPEN of an output that exists (R117, R142) -/

/-- Settles O24: in phase CLOSED the test for an existing output is the one that decides. -/
theorem openOfExistingOutputFaults : Obligations.OpenOfExistingOutputFaults :=
  fun _ hclosed => execCprOpen_exists hclosed

/-! ## Phase FAULTED (R157) -/

/-- A sequence whose first part ends in phase FAULTED ends there (R150). -/
theorem andThen_faulted {r : Result} {s : State} (hr : r = .next s) (h : s.phase = .faulted) (k : State → Result) :
    andThen r k = .next s := by
  rw [hr, andThen_next, if_pos h]

theorem execDetailsSet_faulted {s : State} (h : s.phase = .faulted) (d : Bool) : execDetailsSet d s = .next s :=
  unlessFaulted_faulted h _

theorem execHdrProbe_faulted {s : State} (h : s.phase = .faulted) (src : Source) : execHdrProbe src s = .next s :=
  unlessFaulted_faulted h _

/-- Settles O38: every operation but RESET begins with the test for phase FAULTED, and so does the first operation of
each pseudo-operation, after which no other is run. -/
theorem faultedIgnoresEverythingButReset : Obligations.FaultedIgnoresEverythingButReset := by
  intro i s hfaulted hreset
  cases i with
  | reset => exact absurd rfl hreset
  | convert src => exact andThen_faulted (execHdrProbe_faulted hfaulted src) hfaulted _
  | run _ _ details _ _ => exact andThen_faulted (execDetailsSet_faulted hfaulted details) hfaulted _
  | detailsSet d => exact execDetailsSet_faulted hfaulted d
  | hdrProbe src => exact execHdrProbe_faulted hfaulted src
  | banksLoad list => exact execBanksLoad_faulted hfaulted list
  | cprEncode => exact execCprEncode_faulted hfaulted
  | cprOpen sinkExists => exact show execCprOpen sinkExists s = .next s from unlessFaulted_faulted hfaulted _
  | cprFinalize => exact show execCprFinalize s = .next s from unlessFaulted_faulted hfaulted _
  | illegal code => exact show execIllegal code s = .next s from unlessFaulted_faulted hfaulted _
  | bankFirst => exact show execBankFirst s = .next s from unlessFaulted_faulted hfaulted _
  | bankNext => exact show execBankNext s = .next s from unlessFaulted_faulted hfaulted _
  | chunkEmit => exact show execChunkEmit s = .next s from unlessFaulted_faulted hfaulted _
  | srcHdr h => exact show execSrcHdr h s = .next s from unlessFaulted_faulted hfaulted _
  | preamble totalLength => exact show execPreamble totalLength s = .next s from unlessFaulted_faulted hfaulted _
  | chunk bank payload => exact show execChunk bank payload s = .next s from unlessFaulted_faulted hfaulted _

end Sys2Proof.Machine
end
